-- ==== Sys2Proof/Word.lean ====
section
/-! DEFINITION. The word types of the codec: bytes, 16-bit command words and counters, 128-bit keys. -/

namespace Sys2Proof

/-- `u8`: a byte of a buffer, bits 7 (most significant) down to 0 (rules R9, R10). -/
abbrev Byte := BitVec 8

/-- `u16`: a command word (rule R59) or a frame counter (rule R18). -/
abbrev Half := BitVec 16

/-- A session key, `NWKSKEY` or `APPSKEY`: 128 bits that the codec never looks into (rule R22). -/
abbrev Key := BitVec 128

end Sys2Proof
end

