-- ==== Sys2Proof/Syntax.lean ====
section
/-! DEFINITION. The commands of `codec-cmd-v1`: one constructor per row of the opcode table (rule R61). -/

namespace Sys2Proof

/-- A command. Its one operand is the length an assembler writes as a number (rule R77); whether it fits the 8-bit
`LEN` field is `Instr.wellFormed`. -/
inductive Instr where
  /-- `ENCODE n`: build an uplink frame from `PBUF[0..n)` (rule R84). -/
  | encode (n : Nat)
  /-- `DECODE L`: verify and decrypt the downlink frame `RXBUF[0..L)` (rule R95). -/
  | decode (len : Nat)
deriving DecidableEq, Repr

end Sys2Proof
end

