-- ==== Sys2Proof/WellFormed.lean ====
section
/-! DEFINITION. Well-formed commands: those a 16-bit command word can carry (rules R60, R62, R77). -/

namespace Sys2Proof

/-- The operand is an integer from 0 to 255 (rule R60); every such value is a valid encoding (rule R62), and an
operand outside that range is an assembly error (rule R77). -/
def Instr.wellFormed : Instr → Bool
  | .encode n => decide (n ≤ 255)
  | .decode len => decide (len ≤ 255)

end Sys2Proof
end

