-- ==== Sys2Proof/Decode.lean ====
section
/-! DEFINITION. The decoder of command words and, after it, the encoder (rules R59 to R63, R77). -/

namespace Sys2Proof

/-- Why a command word is no command. -/
inductive Reject where
  /-- `OP` is 0x00 or 0x03 to 0xFF, a reserved value (rule R61). -/
  | reservedOp (op : Byte)
deriving DecidableEq, Repr

/-- The `OP` field, bits [15:8] (rule R60). -/
def opField (w : Half) : Byte := w.extractLsb' 8 8

/-- The `LEN` field, bits [7:0], zero-extended to an integer (rule R60). -/
def lenField (w : Half) : Nat := (w.extractLsb' 0 8).toNat

/-- The `OP` value of ENCODE (rule R61). -/
def opEncode : Byte := 0x01#8

/-- The `OP` value of DECODE (rule R61). -/
def opDecode : Byte := 0x02#8

/-- The command a 16-bit word stands for (rule R61), or the name of what is wrong with it. -/
def decode (w : Half) : Except Reject Instr :=
  if opField w = opEncode then .ok (.encode (lenField w))
  else if opField w = opDecode then .ok (.decode (lenField w))
  else .error (.reservedOp (opField w))

/-- `(OP << 8) | operand` (rule R77). -/
def commandWord (op : Byte) (operand : Nat) : Half :=
  (op.zeroExtend 16 <<< 8) ||| BitVec.ofNat 16 operand

/-- The word of a well-formed command (rule R77). -/
def encode : Instr → Half
  | .encode n => commandWord opEncode n
  | .decode len => commandWord opDecode len

/-- The word made of the low `nbits` bits of `w`, every bit above them 0. -/
def tableWord (nbits w : Nat) : Half := BitVec.ofNat 16 (w % 2 ^ nbits)

/-- The command the decoder reads from the word whose bits are `w`, as the opcode table numbers them. -/
def decodeTableWord (nbits w : Nat) : Option Instr :=
  match decode (tableWord nbits w) with
  | .ok i => some i
  | .error _ => none

end Sys2Proof
end

