-- ==== Sys2Proof/Config.lean ====
section
/-! DEFINITION. The configuration of the codec (rules R7, R21, R22, R30, R33, R34, R36): plain data that a session fixes
from one reset to the next, and the two external primitives, which are uninterpreted functions. -/

namespace Sys2Proof

/-- The direction flag both primitives take (rule R30): 0 is uplink, 1 is downlink. -/
inductive Direction where
  | uplink
  | downlink
deriving DecidableEq, Repr, Inhabited

/-- `DEVADDR`, the bytes `DA[0..3]` in the session's native field order (rule R21). -/
structure DevAddr where
  da0 : Byte
  da1 : Byte
  da2 : Byte
  da3 : Byte
deriving DecidableEq, Repr, Inhabited

/-- The four bytes `m[0..3]` a MIC computation returns, `m[0]` most significant (rule R34). -/
structure MicTag where
  m0 : Byte
  m1 : Byte
  m2 : Byte
  m3 : Byte
deriving DecidableEq, Repr, Inhabited

/-- The legal values of `ENC_BUF_CAP` (rule R7: 13 to 255). -/
abbrev EncCap := { n : Nat // 13 ≤ n ∧ n ≤ 255 }

/-- The legal values of `DEC_BUF_CAP` (rule R7: 8 to 255). -/
abbrev DecCap := { n : Nat // 8 ≤ n ∧ n ≤ 255 }

/-- One configuration (rule R7). It is data of the session: supplied from outside, replaced only at reset, written by
no command (rules R17, R127, R141). -/
structure SessionConfig where
  /-- `DEVADDR` (rule R21). -/
  devAddr : DevAddr
  /-- `NWKSKEY`, the key argument of `Mic` (rule R22). -/
  nwkSKey : Key
  /-- `APPSKEY`, the key argument of `Cipher` (rule R22). -/
  appSKey : Key
  /-- `MHDR_TAG` (rules R7, R67). -/
  mhdrTag : Byte
  /-- `ENC_BUF_CAP`, the size of `TXBUF` (rule R41). -/
  encBufCap : EncCap
  /-- `DEC_BUF_CAP`, the size of `RXBUF` (rule R41). -/
  decBufCap : DecCap
  /-- `DECODE_DIRECTION`: downlink normatively, uplink in the loopback harness (rules R7, R30). -/
  decodeDirection : Direction
  /-- Which pair of primitives this configuration supplies. The functions themselves are `Config.cipher` and
  `Config.mic`; this label lets a reset bring in another pair (rule R7), the state staying plain data. -/
  primitives : Nat
deriving DecidableEq, Repr

/-- `PBUF_CAP = ENC_BUF_CAP - 13` (rule R7). -/
def SessionConfig.pbufCap (k : SessionConfig) : Nat := k.encBufCap.val - 13

/-- A pair of external primitives (rules R33, R34). The length `n` of the input string is part of its type, so that
`Cipher` is length-preserving by construction. -/
structure Primitives where
  /-- `Cipher(s, n, c, d, K)` (rule R33). -/
  cipher : (n : Nat) → Vector Byte n → Half → Direction → Key → Vector Byte n
  /-- `Mic(s, n, c, d, K)` (rule R34). -/
  mic : (n : Nat) → Vector Byte n → Half → Direction → Key → MicTag

/-- The `Cipher` a configuration supplies: uninterpreted, fixed for the configuration and free to depend on any
constant of it (rules R33, R36). -/
opaque Config.cipher : SessionConfig → (n : Nat) → Vector Byte n → Half → Direction → Key → Vector Byte n

/-- The `Mic` a configuration supplies: uninterpreted, as `Config.cipher` is (rules R34, R36). -/
opaque Config.mic : SessionConfig → (n : Nat) → Vector Byte n → Half → Direction → Key → MicTag

/-- The primitives of a configuration. -/
def Config.primitives (k : SessionConfig) : Primitives where
  cipher := Config.cipher k
  mic := Config.mic k

/-- `DEVADDR` of the configuration the machine is built with: no value is given (rule R29). -/
opaque Config.devAddr : DevAddr

/-- `NWKSKEY` of that configuration: no value is given. -/
opaque Config.nwkSKey : Key

/-- `APPSKEY` of that configuration: no value is given. -/
opaque Config.appSKey : Key

/-- `MHDR_TAG` of that configuration: OPEN in the spec (rule R7, decision D6). -/
opaque Config.mhdrTag : Byte

/-- How far `DEC_BUF_CAP` of that configuration lies above its least legal value 8: OPEN (rule R7, decision D12). -/
opaque Config.decBufSpare : Fin 248

/-- The label of that configuration's primitives: no value is given. -/
opaque Config.primitivesLabel : Nat

/-- The configuration the machine is built with, until a reset replaces it: `ENC_BUF_CAP` is 80 and
`DECODE_DIRECTION` is 1, the values rule R7 gives; the rest stays open. -/
def Config.session : SessionConfig where
  devAddr := Config.devAddr
  nwkSKey := Config.nwkSKey
  appSKey := Config.appSKey
  mhdrTag := Config.mhdrTag
  encBufCap := ⟨80, by decide⟩
  decBufCap := ⟨8 + Config.decBufSpare.val, by omega⟩
  decodeDirection := .downlink
  primitives := Config.primitivesLabel

end Sys2Proof
end

