-- ==== Sys2Proof/Machine/State.lean ====
section
/-! DEFINITION. The state of the machine: the codec's registers and buffers (rules R17, R27, R41), the configuration
of the session, and the host agent's pending moves (rules R5, R78). -/

namespace Sys2Proof.Machine

/-- The three byte buffers (rule R41). -/
inductive Buffer where
  /-- the payload buffer -/
  | pbuf
  /-- the transmit frame buffer -/
  | txbuf
  /-- the receive frame buffer -/
  | rxbuf
deriving DecidableEq, Repr

/-- What a buffer holds: the bytes that hold a value, by rising index. An index that is not listed holds no value
(`⊥`, rule R46). -/
abbrev Memory := List Host.Cell

/-- A value the host reads: one byte, or a whole 8-bit or 16-bit register (rule R52). -/
inductive HostDatum where
  | byte (v : Byte)
  | half (v : Half)
deriving DecidableEq, Repr

/-- One move of the host (rules R78, R140). Each is one access, or for `copyByte` one read and one write with nothing
between them. -/
inductive HostAction where
  /-- assert reset; `some k` supplies a new configuration with it (rule R127) -/
  | reset (k : Option SessionConfig)
  /-- write a word to a register index; a write to index 0 issues a command (rules R28, R59) -/
  | writeReg (index : Fin 256) (w : Half)
  /-- read a register index (rule R28) -/
  | readReg (index : Fin 256)
  /-- write one byte of a buffer (rule R42) -/
  | writeByte (b : Buffer) (index : Nat) (v : Byte)
  /-- read one byte of a buffer (rule R42) -/
  | readByte (b : Buffer) (index : Nat)
  /-- copy the byte `TXBUF[src]` to `RXBUF[dst]` (rule R78, `COPY`) -/
  | copyByte (src dst : Nat)
deriving DecidableEq, Repr

/-- The machine. The first eight fields are the codec's state (rule R17), `cfg` is the configuration, and the last two
belong to the host agent (rules R5, R15). -/
structure State where
  /-- `UPCNT`, the uplink counter (rule R18) -/
  upcnt : Half
  /-- `RES_LEN`, `none` while it holds no value (rule R23) -/
  resLen : Option Byte
  /-- `RES_OFF`, an `i8` in two's complement, `none` while it holds no value (rule R24) -/
  resOff : Option Byte
  /-- `DEC_STATUS` (rule R25) -/
  decStatus : Byte
  /-- `FAULT_CAUSE` (rule R26) -/
  faultCause : Byte
  /-- `PBUF`, of `PBUF_CAP` bytes (rule R41) -/
  pbuf : Memory
  /-- `TXBUF`, of `ENC_BUF_CAP` bytes (rule R41) -/
  txbuf : Memory
  /-- `RXBUF`, of `DEC_BUF_CAP` bytes (rule R41) -/
  rxbuf : Memory
  /-- the configuration in force since the last reset (rule R17) -/
  cfg : SessionConfig
  /-- the host's moves still to come, the next one first (rule R15) -/
  script : List HostAction
  /-- what the host's latest read returned, `none` for no value (rule R28) -/
  hostData : Option HostDatum
deriving DecidableEq, Repr

/-- Reasons for which the machine stops with a fault: there are none. Every fault of rule R109 is a state the spec
describes (`FAULT_CAUSE` set, the block halted, the host still free to move), so a faulting command answers a next
state. Safe: no step is left out. -/
inductive Fault where
deriving DecidableEq, Repr

/-- Reasons for which a command has no meaning. -/
inductive Refusal where
  /-- raised only by an arm of `exec` whose command is not modelled yet; no arm is left, so nothing raises it (safe) -/
  | notModelled (mnemonic : String)
deriving DecidableEq, Repr

/-- The machine right after reset (rules R29, R127), with the configuration it was built with and no host move
pending. -/
def State.reset : State where
  upcnt := 0
  resLen := none
  resOff := none
  decStatus := 0
  faultCause := 0
  pbuf := []
  txbuf := []
  rxbuf := []
  cfg := Config.session
  script := []
  hostData := none

end Sys2Proof.Machine
end

