-- ==== Sys2Proof/Machine/Flags.lean ====
section
/-! DEFINITION. The block has no flags (rule R32). Its status outputs are `RES_OFF`, `DEC_STATUS` and `FAULT_CAUSE`
(rules R24 to R26): the codes they hold. -/

namespace Sys2Proof.Machine

/-- The causes a command can fault with (rule R109). -/
inductive FaultCause where
  | illegalCommand
  | encOverflow
  | decTooShort
  | decTooLong
  | unwrittenRead
deriving DecidableEq, Repr

/-- The code `FAULT_CAUSE` holds for a cause (rule R109); 0 is `NONE`. -/
def FaultCause.code : FaultCause → Byte
  | .illegalCommand => 0x01#8
  | .encOverflow => 0x02#8
  | .decTooShort => 0x03#8
  | .decTooLong => 0x04#8
  | .unwrittenRead => 0x05#8

/-- What a completed DECODE reports in `DEC_STATUS` (rule R25). -/
inductive DecStatus where
  | ok
  | micMismatch
  | emptyPayload
deriving DecidableEq, Repr

/-- The code `DEC_STATUS` holds (rule R25); 0 is `NONE`, bits [7:2] are always 0. -/
def DecStatus.code : DecStatus → Byte
  | .ok => 0x01#8
  | .micMismatch => 0x02#8
  | .emptyPayload => 0x03#8

/-- `-1` as an `i8` (rule R24): MIC mismatch or empty payload. -/
def noPayloadResult : Byte := BitVec.ofInt 8 (-1)

/-- A payload offset as the `i8` of `RES_OFF` (rule R24). -/
def offsetResult (off : Nat) : Byte := BitVec.ofNat 8 off

/-- The block has faulted and ignores commands (rule R113). -/
def State.halted (s : State) : Bool := s.faultCause != 0#8

end Sys2Proof.Machine
end

