-- ==== Sys2Proof/Machine/Operands.lean ====
section
/-! DEFINITION. The operands of the two commands: the fields of a frame (rules R66 to R75) and the units that make or
read them (rules R80, R81, R93, R94, R98, R101). -/

namespace Sys2Proof.Machine

/-- Header overhead of a frame, 1+4+1+2+1 bytes (rules R7, R75). -/
def headerBytes : Nat := 9

/-- Length of the MIC field (rule R7). -/
def micFieldBytes : Nat := 4

/-- Index of the frame-control byte (rule R66). -/
def fctrlIndex : Nat := 5

/-- Index of the low counter byte (rule R66). -/
def fcntIndex : Nat := 6

/-- Index of the frame-port byte (rule R66). -/
def fportIndex : Nat := 8

/-- The options-length mask (rule R94). -/
def optionsMask : Byte := 0x0F#8

/-- The frame-control byte ENCODE writes (rule R69). -/
def fctrlUplink : Byte := 0x00#8

/-- The frame-port byte ENCODE writes (rule R71). -/
def fportUplink : Byte := 0x01#8

/-- The least frame length DECODE admits (rule R96). -/
def minDownlinkLength : Nat := 8

/-- `c[7:0]` (rule R9). -/
def lowByte (c : Half) : Byte := c.extractLsb' 0 8

/-- `c[15:8]` (rule R9). -/
def highByte (c : Half) : Byte := c.extractLsb' 8 8

/-- Frame-counter sequencer, serialisation: `LE16(c) = c[7:0], c[15:8]` (rule R81). -/
def le16 (c : Half) : List Byte := [lowByte c, highByte c]

/-- Frame-counter sequencer, extraction: `zext_16(lo) | (zext_16(hi) << 8)` (rules R70, R93). -/
def counterOf (lo hi : Byte) : Half := lo.zeroExtend 16 ||| (hi.zeroExtend 16 <<< 8)

/-- Frame-counter sequencer, increment: `(c + 1) mod 2^16` (rules R20, R82). -/
def nextCounter (c : Half) : Half := c + 1

/-- The 32-bit value `D` of a device address, `DA[0]` most significant (rule R21). -/
def addrValue (a : DevAddr) : BitVec 32 :=
  (a.da0.zeroExtend 32 <<< 24) ||| (a.da1.zeroExtend 32 <<< 16) ||| (a.da2.zeroExtend 32 <<< 8) ||| a.da3.zeroExtend 32

/-- Address byte-reversal unit: `AddrRev(DA) = DA[3], DA[2], DA[1], DA[0]` (rule R80). -/
def addrRev (a : DevAddr) : DevAddr := ⟨a.da3, a.da2, a.da1, a.da0⟩

/-- The bytes of an address, index 0 first. -/
def addrBytes (a : DevAddr) : List Byte := [a.da0, a.da1, a.da2, a.da3]

/-- The nine header bytes of an uplink frame with counter `c` (rule R88). -/
def uplinkHeader (k : SessionConfig) (c : Half) : List Byte :=
  k.mhdrTag :: (addrBytes (addrRev k.devAddr) ++ fctrlUplink :: (le16 c ++ [fportUplink]))

/-- Byte `i` of a frame; asked only for indices inside it (rule R96). -/
def frameByte (f : List Byte) (i : Nat) : Byte := f.getD i 0

/-- `f[a..b)` (rule R11). -/
def slice (f : List Byte) (a b : Nat) : List Byte := (f.take b).drop a

/-- The counter of a downlink frame (rule R93). -/
def frameCounter (f : List Byte) : Half := counterOf (frameByte f fcntIndex) (frameByte f (fcntIndex + 1))

/-- The options length `k` a frame-control byte records (rule R69). -/
def optionsLength (fctrl : Byte) : Nat := (fctrl &&& optionsMask).toNat

/-- Payload-offset calculator: `8 + 1 + k` (rule R94). -/
def payloadOffset (fctrl : Byte) : Nat := fportIndex + 1 + optionsLength fctrl

/-- `pe = L - 4` (rule R98). -/
def payloadEnd (len : Nat) : Nat := len - micFieldBytes

/-- `plen = pe - off`, an integer (rule R101). -/
def payloadLength (pe off : Nat) : Int := (pe : Int) - (off : Int)

/-- The length of an uplink frame with a payload of `n` bytes (rule R75). -/
def uplinkLength (n : Nat) : Nat := headerBytes + n + micFieldBytes

end Sys2Proof.Machine
end

