-- ==== Sys2Proof/Machine/Ops.lean ====
section
/-! DEFINITION. The named operations: reading and writing buffer bytes (rules R11, R12, R41 to R46), calling the
external primitives (rules R33, R34), taking a fault (rule R112), ignoring a command while halted (rule R113), and
reset, the one return from a fault (rules R118, R127). -/

namespace Sys2Proof.Machine

/-! ## One buffer -/

/-- The byte at an index, `none` where it holds no value. -/
def Memory.read : Memory → Nat → Option Byte
  | [], _ => none
  | (b, v) :: m, a => if a = b then some v else Memory.read m a

/-- Give the byte at an index a value, keeping the cells in rising order. -/
def Memory.write : Memory → Nat → Byte → Memory
  | [], a, v => [(a, v)]
  | (b, w) :: m, a, v =>
    if a < b then (a, v) :: (b, w) :: m
    else if a = b then (a, v) :: m
    else (b, w) :: Memory.write m a v

/-- Leave the byte at an index without a value. -/
def Memory.erase (m : Memory) (a : Nat) : Memory := m.filter fun x => decide (x.1 ≠ a)

/-- Make the byte at an index hold the given optional value. -/
def Memory.put (m : Memory) (a : Nat) : Option Byte → Memory
  | some v => m.write a v
  | none => m.erase a

/-- `MemRead(B, a, n)`: the bytes `B[a..a+n)`, `none` if one of them holds no value (rule R12). -/
def Memory.readRange (m : Memory) (a : Nat) : Nat → Option (List Byte)
  | 0 => some []
  | n + 1 =>
    match m.read a, Memory.readRange m (a + 1) n with
    | some v, some vs => some (v :: vs)
    | _, _ => none

/-- `MemWrite(B, a, n, s)`: the bytes of `s` from index `a` on (rules R11, R12). -/
def Memory.writeRange (m : Memory) (a : Nat) : List Byte → Memory
  | [] => m
  | v :: vs => Memory.writeRange (m.write a v) (a + 1) vs

/-- The canonical form: indices strictly rising. An unlisted index holds no value, so no entry can equal what an
unlisted index reads as. -/
abbrev Memory.wf (m : Memory) : Prop := m.Pairwise fun x y => x.1 < y.1

/-- Every listed index lies inside a buffer of `cap` bytes. -/
abbrev Memory.inside (m : Memory) (cap : Nat) : Prop := ∀ x ∈ m, x.1 < cap

/-! ## The three buffers -/

/-- The contents of a buffer. -/
def State.buf (s : State) : Buffer → Memory
  | .pbuf => s.pbuf
  | .txbuf => s.txbuf
  | .rxbuf => s.rxbuf

/-- The size of a buffer (rule R41). -/
def SessionConfig.cap (k : SessionConfig) : Buffer → Nat
  | .pbuf => k.pbufCap
  | .txbuf => k.encBufCap.val
  | .rxbuf => k.decBufCap.val

/-- Replace the contents of one buffer; the buffers are disjoint (rule R43). -/
def State.setBuf (s : State) (b : Buffer) (m : Memory) : State :=
  match b with
  | .pbuf => { s with pbuf := m }
  | .txbuf => { s with txbuf := m }
  | .rxbuf => { s with rxbuf := m }

/-! ## The external primitives -/

/-- `Cipher(s, n, c, d, K)` on a byte string, `n` being its length (rule R33). -/
def cipherBytes (P : Primitives) (s : List Byte) (c : Half) (d : Direction) (K : Key) : List Byte :=
  (P.cipher s.length ⟨s.toArray, List.size_toArray⟩ c d K).toList

/-- The bytes of a MIC in the order the frame holds them (rules R49, R74). -/
def tagBytes (t : MicTag) : List Byte := [t.m0, t.m1, t.m2, t.m3]

/-- `Mic(s, n, c, d, K)` on a byte string, `n` being its length (rule R34). -/
def micBytes (P : Primitives) (s : List Byte) (c : Half) (d : Direction) (K : Key) : List Byte :=
  tagBytes (P.mic s.length ⟨s.toArray, List.size_toArray⟩ c d K)

/-! ## Faults -/

/-- Fault entry: `FAULT_CAUSE <- cause` and no other state changes (rule R112). -/
def raiseFault (cause : FaultCause) (s : State) : State := { s with faultCause := cause.code }

/-- A command is ignored while the block is halted (rule R113): no state changes. Otherwise it runs. -/
def whenRunning (s : State) (k : Host.Outcome State Fault Refusal) : Host.Outcome State Fault Refusal :=
  if s.halted then .next s else k

/-- A reserved command word: `ILLEGAL_COMMAND` (rule R110). -/
def illegalCommand (s : State) : Host.Outcome State Fault Refusal :=
  whenRunning s (.next (raiseFault .illegalCommand s))

/-- Reset (rules R29, R127), the only way out of a fault (rule R118). It gives every piece of the codec's state its
reset value; the configuration is kept or, if one is supplied, replaced (rule R127); the host's own fields stay. -/
def resetBlock (k : Option SessionConfig) (s : State) : State :=
  { State.reset with cfg := k.getD s.cfg, script := s.script, hostData := s.hostData }

end Sys2Proof.Machine
end

