-- ==== Sys2Proof/Machine/FrameDecoder.lean ====
section
/-! DEFINITION. The frame decoder: the command DECODE (rules R93 to R107). -/

namespace Sys2Proof.Machine

/-- MIC verifier (rule R99): all four MIC bytes of the frame equal the MIC recomputed over the bytes before them. -/
def micMatches (P : Primitives) (k : SessionConfig) (f : List Byte) (pe : Nat) : Bool :=
  decide (micBytes P (slice f 0 pe) (frameCounter f) k.decodeDirection k.nwkSKey = slice f pe (pe + micFieldBytes))

/-- A DECODE that completes with `-1` (rules R100, R102): two results, nothing else. -/
def reportNoPayload (st : DecStatus) (s : State) : State :=
  { s with resOff := some noPayloadResult, decStatus := st.code }

/-- A DECODE that succeeds (rules R103, R105): the payload `f[off..pe)` is decrypted in place. -/
def reportPayload (P : Primitives) (f : List Byte) (off pe : Nat) (s : State) : State :=
  { s with
    rxbuf := s.rxbuf.writeRange off
      (cipherBytes P (slice f off pe) (frameCounter f) s.cfg.decodeDirection s.cfg.appSKey)
    resOff := some (offsetResult off)
    decStatus := DecStatus.ok.code }

/-- What a completed `DECODE L` writes, `f` being `RXBUF[0..L)` (rules R98 to R105). The payload offset is used only
after the MIC has matched (rule R94). -/
def completeDecode (P : Primitives) (len : Nat) (f : List Byte) (s : State) : State :=
  let pe := payloadEnd len
  if micMatches P s.cfg f pe then
    let off := payloadOffset (frameByte f fctrlIndex)
    if payloadLength pe off ≤ 0 then reportNoPayload .emptyPayload s
    else reportPayload P f off pe s
  else reportNoPayload .micMismatch s

/-- `DECODE L` with the primitives `P`, its checks in the order of rule R117. -/
def decodeWith (P : Primitives) (len : Nat) (s : State) : Host.Outcome State Fault Refusal :=
  whenRunning s <|
    if len < minDownlinkLength then .next (raiseFault .decTooShort s)
    else if len > s.cfg.decBufCap.val then .next (raiseFault .decTooLong s)
    else
      match s.rxbuf.readRange 0 len with
      | none => .next (raiseFault .unwrittenRead s)
      | some f => .next (completeDecode P len f s)

/-- The meaning of DECODE (rule R95): `decodeWith` at the primitives of the configuration in force. -/
def execDecode (len : Nat) (s : State) : Host.Outcome State Fault Refusal :=
  decodeWith (Config.primitives s.cfg) len s

end Sys2Proof.Machine
end

