-- ==== Sys2Proof/Machine/FrameEncoder.lean ====
section
/-! DEFINITION. The frame encoder: the command ENCODE (rules R79 to R91). -/

namespace Sys2Proof.Machine

/-- The ciphertext of a payload (rule R87): direction 0, the application session key, the counter before the
increment (rule R79). -/
def uplinkCiphertext (P : Primitives) (k : SessionConfig) (c : Half) (p : List Byte) : List Byte :=
  cipherBytes P p c .uplink k.appSKey

/-- MIC appender (rule R83): a frame's bytes so far followed by their MIC, with direction 0 and the network session
key. -/
def appendMic (P : Primitives) (k : SessionConfig) (c : Half) (pre : List Byte) : List Byte :=
  pre ++ micBytes P pre c .uplink k.nwkSKey

/-- The uplink frame of a ciphertext: header, ciphertext, MIC (rules R66, R83, R88, R89). -/
def uplinkFrame (P : Primitives) (k : SessionConfig) (c : Half) (ct : List Byte) : List Byte :=
  appendMic P k c (uplinkHeader k c ++ ct)

/-- What a completed `ENCODE n` writes, `p` being `PBUF[0..n)` (rules R87 to R91, R82). -/
def completeEncode (P : Primitives) (n : Nat) (p : List Byte) (s : State) : State :=
  let c := s.upcnt
  let ct := uplinkCiphertext P s.cfg c p
  { s with
    pbuf := s.pbuf.writeRange 0 ct
    txbuf := s.txbuf.writeRange 0 (uplinkFrame P s.cfg c ct)
    upcnt := nextCounter c
    resLen := some (BitVec.ofNat 8 (uplinkLength n)) }

/-- `ENCODE n` with the primitives `P`, its checks in the order of rule R117. -/
def encodeWith (P : Primitives) (n : Nat) (s : State) : Host.Outcome State Fault Refusal :=
  whenRunning s <|
    if n > s.cfg.pbufCap then .next (raiseFault .encOverflow s)
    else
      match s.pbuf.readRange 0 n with
      | none => .next (raiseFault .unwrittenRead s)
      | some p => .next (completeEncode P n p s)

/-- The meaning of ENCODE (rule R84): `encodeWith` at the primitives of the configuration in force. -/
def execEncode (n : Nat) (s : State) : Host.Outcome State Fault Refusal :=
  encodeWith (Config.primitives s.cfg) n s

end Sys2Proof.Machine
end

