-- ==== Sys2Proof/Machine/Dispatch.lean ====
section
/-! DEFINITION. Dispatch: one arm per command. -/

namespace Sys2Proof.Machine

/-- The effect of one command. -/
def exec (i : Instr) (s : State) : Host.Outcome State Fault Refusal :=
  match i with
  | .encode n => Sys2Proof.Machine.execEncode n s
  | .decode len => Sys2Proof.Machine.execDecode len s

end Sys2Proof.Machine
end

