-- ==== Sys2Proof/Machine/HostPort.lean ====
section
/-! DEFINITION. The host's side of the block: the command port (rule R59), the register map (rules R27, R28), the
buffers (rule R42), reset (rule R127), and the host-script notation (rule R78). -/

namespace Sys2Proof.Machine

/-! ## The command port -/

/-- A host write of `w` to `CMD`: exactly one command, executed as one atomic step (rule R59). A reserved word is a
command too, and faults (rule R110). -/
def issueCommand (w : Half) (s : State) : Host.Outcome State Fault Refusal :=
  match decode w with
  | .ok i => exec i s
  | .error _ => illegalCommand s

/-! ## The register map -/

/-- The six registers (rule R27). -/
inductive Reg where
  | cmd
  | upcnt
  | resLen
  | resOff
  | decStatus
  | faultCause
deriving DecidableEq, Repr

/-- The register at an index; `none` for the reserved indices 6 to 255 (rule R27). -/
def Reg.ofIndex (index : Fin 256) : Option Reg :=
  match index.val with
  | 0 => some .cmd
  | 1 => some .upcnt
  | 2 => some .resLen
  | 3 => some .resOff
  | 4 => some .decStatus
  | 5 => some .faultCause
  | _ => none

/-- What a host read of a register returns; `none` is no value (rules R27, R28). -/
def Reg.value (s : State) : Reg → Option HostDatum
  | .cmd => none
  | .upcnt => some (.half s.upcnt)
  | .resLen => s.resLen.map .byte
  | .resOff => s.resOff.map .byte
  | .decStatus => some (.byte s.decStatus)
  | .faultCause => some (.byte s.faultCause)

/-- A host read of a register index (rule R28). -/
def readIndex (index : Fin 256) (s : State) : Option HostDatum :=
  match Reg.ofIndex index with
  | some r => r.value s
  | none => none

/-- A host write to a register index: index 0 issues a command, every other index changes nothing (rule R28). -/
def writeIndex (index : Fin 256) (w : Half) (s : State) : Host.Outcome State Fault Refusal :=
  match Reg.ofIndex index with
  | some .cmd => issueCommand w s
  | some .upcnt => .next s
  | some .resLen => .next s
  | some .resOff => .next s
  | some .decStatus => .next s
  | some .faultCause => .next s
  | none => .next s

/-! ## The buffers -/

/-- A host read of a buffer byte; no value at a `⊥` byte or outside the buffer (rules R42, R46). -/
def hostByte (b : Buffer) (index : Nat) (s : State) : Option Byte :=
  if index < SessionConfig.cap s.cfg b then (s.buf b).read index else none

/-- Make a buffer byte hold an optional value; outside the buffer nothing changes (rule R42). -/
def hostPut (b : Buffer) (index : Nat) (v : Option Byte) (s : State) : State :=
  if index < SessionConfig.cap s.cfg b then s.setBuf b ((s.buf b).put index v) else s

/-- `COPY` of one byte (rule R78): read `TXBUF[src]`, write it to `RXBUF[dst]`. Where the read returns no value, because
the byte holds none or because `src` lies outside `TXBUF`, the spec does not say what `COPY` writes. DESIGN CHOICE (log
entry 6): the copy is left without a value. -/
def hostCopy (src dst : Nat) (s : State) : State := hostPut .rxbuf dst (hostByte .txbuf src s) s

/-- Note what a host read returned. -/
def hostTakes (v : Option HostDatum) (s : State) : State := { s with hostData := v }

/-! ## The host's moves -/

/-- One move of the host (rule R140). -/
def hostMove (a : HostAction) (s : State) : Host.Outcome State Fault Refusal :=
  match a with
  | .reset k => .next (resetBlock k s)
  | .writeReg index w => writeIndex index w s
  | .readReg index => .next (hostTakes (readIndex index s) s)
  | .writeByte b index v => .next (hostPut b index (some v) s)
  | .readByte b index => .next (hostTakes ((hostByte b index s).map .byte) s)
  | .copyByte src dst => .next (hostCopy src dst s)

/-- The host's turn: take the next move of its script, or, with none left, leave the idle block as it is (rules R125,
R128). -/
def hostTurn (s : State) : Host.Outcome State Fault Refusal :=
  match s.script with
  | [] => .next s
  | a :: rest => hostMove a { s with script := rest }

/-- Put a move at the front of the host's script. -/
def withMove (a : HostAction) (s : State) : State := { s with script := a :: s.script }

/-! ## Host-script notation (rule R78) -/

/-- `CMD <word>`. -/
def scriptCmd (w : Half) : List HostAction := [.writeReg 0 w]

/-- A command by its mnemonic: its word, written to `CMD`. -/
def scriptInstr (i : Instr) : List HostAction := scriptCmd (encode i)

/-- `WRITE B[a] = b0 b1 …`. -/
def scriptWrite (b : Buffer) (a : Nat) : List Byte → List HostAction
  | [] => []
  | v :: vs => .writeByte b a v :: scriptWrite b (a + 1) vs

/-- `COPY TXBUF[0..N) -> RXBUF[0]`. -/
def scriptCopy (n : Nat) : List HostAction := (List.range n).map fun i => .copyByte i i

/-- `COPY TXBUF[0..N) -> RXBUF[0]` done at once. -/
def hostCopyFrame : Nat → State → State
  | 0, s => s
  | n + 1, s => hostCopy n n (hostCopyFrame n s)

end Sys2Proof.Machine
end

