-- ==== Sys2Proof/Machine/Step.lean ====
section
/-! DEFINITION. The step: one move of the host, a command among them (rules R5, R6), and how a command word is placed
as the very next one. -/

namespace Sys2Proof.Machine

/-- One step of the machine: the next move of the host's script. -/
def step (s : State) : Host.Outcome State Fault Refusal := hostTurn s

/-- `s` with the command word whose bits are `w` as the host's very next write to `CMD`. -/
def State.withFetchWord (s : State) (nbits w : Nat) : State := withMove (.writeReg 0 (tableWord nbits w)) s

end Sys2Proof.Machine
end

