-- ==== Sys2Proof/Machine/Assembler.lean ====
section
/-! DEFINITION. The command assembler (rule R77). -/

namespace Sys2Proof.Machine

/-- What can be wrong with a line of the assembler's input. -/
inductive AsmError where
  /-- the first word is neither `ENCODE` nor `DECODE` -/
  | unknownMnemonic
  /-- the operand is no decimal or `0x`-prefixed integer -/
  | badOperand
  /-- the operand lies outside 0 to 255 -/
  | operandOutOfRange
deriving DecidableEq, Repr

/-- The value of a digit in a base of at most 16. -/
def digitValue (base : Nat) (c : Char) : Option Nat :=
  let v :=
    if '0' ≤ c ∧ c ≤ '9' then c.toNat - 48
    else if 'a' ≤ c ∧ c ≤ 'f' then c.toNat - 87
    else if 'A' ≤ c ∧ c ≤ 'F' then c.toNat - 55
    else 16
  if v < base then some v else none

/-- The number a string of digits spells, `acc` being the digits already read. -/
def digitsValue (base : Nat) : List Char → Nat → Option Nat
  | [], acc => some acc
  | c :: cs, acc =>
    match digitValue base c with
    | some v => digitsValue base cs (acc * base + v)
    | none => none

/-- A non-empty string of digits. -/
def numeral (base : Nat) : List Char → Option Nat
  | [] => none
  | c :: cs => digitsValue base (c :: cs) 0

/-- An operand: a decimal or `0x`-prefixed integer (rule R77). -/
def operandValue : List Char → Option Nat
  | '0' :: 'x' :: cs => numeral 16 cs
  | cs => numeral 10 cs

/-- The command a mnemonic stands for, its capitals not looked at (rule R77). -/
def mnemonicOf (cs : List Char) : Option (Nat → Instr) :=
  if cs.map Char.toLower = ['e', 'n', 'c', 'o', 'd', 'e'] then some .encode
  else if cs.map Char.toLower = ['d', 'e', 'c', 'o', 'd', 'e'] then some .decode
  else none

/-- Assemble one line, `<mnemonic> <operand>`, into a command (rule R77). -/
def assemble (line : List Char) : Except AsmError Instr :=
  match mnemonicOf (line.takeWhile (· != ' ')) with
  | none => .error .unknownMnemonic
  | some mk =>
    match operandValue ((line.dropWhile (· != ' ')).dropWhile (· == ' ')) with
    | none => .error .badOperand
    | some v => if (mk v).wellFormed then .ok (mk v) else .error .operandOutOfRange

/-- Assemble one line into its command word (rule R77). -/
def assembleWord (line : String) : Except AsmError Half :=
  match assemble line.toList with
  | .ok i => .ok (encode i)
  | .error e => .error e

end Sys2Proof.Machine
end

