-- ==== Sys2Proof/Safety.lean ====
section
/-! DEFINITION. The terms in which claims are made: the invariant of the machine's state, how a run ends (rule R139),
and the named assumptions about the primitives (rules R35, R108). -/

namespace Sys2Proof.Machine

/-- `B[a..a+|p|) = p`: the buffer holds the byte string `p` from index `a` on (rule R11). -/
def Memory.holds (m : Memory) (a : Nat) (p : List Byte) : Prop := ∀ i < p.length, m.read (a + i) = p[i]?

/-- What is true of every state the machine can be in. -/
structure Inv (s : State) : Prop where
  /-- `PBUF` is in canonical form. -/
  pbufForm : s.pbuf.wf
  /-- `TXBUF` is in canonical form. -/
  txbufForm : s.txbuf.wf
  /-- `RXBUF` is in canonical form. -/
  rxbufForm : s.rxbuf.wf
  /-- No byte outside `PBUF` has a value (rule R41). -/
  pbufInside : s.pbuf.inside s.cfg.pbufCap
  /-- No byte outside `TXBUF` has a value (rule R41). -/
  txbufInside : s.txbuf.inside s.cfg.encBufCap.val
  /-- No byte outside `RXBUF` has a value (rule R41). -/
  rxbufInside : s.rxbuf.inside s.cfg.decBufCap.val
  /-- `RES_LEN` is a length from 13 to `ENC_BUF_CAP` (rule R23). -/
  resLenRange : ∀ r, s.resLen = some r → 13 ≤ r.toNat ∧ r.toNat ≤ s.cfg.encBufCap.val
  /-- `TXBUF[0..RES_LEN)` are valid frame bytes (rule R23). -/
  frameWritten : ∀ r, s.resLen = some r → ∀ i < r.toNat, s.txbuf.read i ≠ none
  /-- Before the first ENCODE completes the counter stands at its reset value (rules R19, R23). -/
  counterFresh : s.resLen = none → s.upcnt = 0
  /-- `DEC_STATUS` and `RES_OFF` go together (rules R24, R25): no DECODE yet; success with an offset from 9 to 24; or
  `-1` with its reason. -/
  decodeResult :
    (s.decStatus = 0#8 ∧ s.resOff = none)
      ∨ (s.decStatus = 1#8 ∧ ∃ r, s.resOff = some r ∧ 9 ≤ r.toNat ∧ r.toNat ≤ 24)
      ∨ ((s.decStatus = 2#8 ∨ s.decStatus = 3#8) ∧ s.resOff = some 0xFF#8)
  /-- `FAULT_CAUSE` holds no reserved code (rule R109). -/
  faultLegal : s.faultCause.toNat ≤ 5

/-- A move that is not an assertion of reset. -/
def HostAction.noReset : HostAction → Bool
  | .reset _ => false
  | .writeReg _ _ => true
  | .readReg _ => true
  | .writeByte _ _ _ => true
  | .readByte _ _ => true
  | .copyByte _ _ => true

/-- A move that issues an ENCODE: a write to `CMD` of a word that decodes to one. -/
def HostAction.issuesEncode : HostAction → Bool
  | .writeReg index w =>
    match Reg.ofIndex index, decode w with
    | some .cmd, .ok (.encode _) => true
    | _, _ => false
  | .reset _ => false
  | .readReg _ => false
  | .writeByte _ _ _ => false
  | .readByte _ _ => false
  | .copyByte _ _ => false

/-- How many ENCODEs a script issues. -/
def encodesIssued (script : List HostAction) : Nat := script.countP HostAction.issuesEncode

/-- What is observed of a run at its end (rule R139): the registers by index, and the bytes of the three buffers, each
possibly without a value. -/
structure Observation where
  registers : List (Option HostDatum)
  pbuf : List (Option Byte)
  txbuf : List (Option Byte)
  rxbuf : List (Option Byte)
deriving DecidableEq, Repr

/-- The bytes of one buffer, index 0 first. -/
def State.bytes (s : State) (b : Buffer) : List (Option Byte) :=
  (List.range (SessionConfig.cap s.cfg b)).map fun i => hostByte b i s

/-- The observation of a state (rule R139). -/
def State.observe (s : State) : Observation where
  registers := [Reg.cmd, Reg.upcnt, Reg.resLen, Reg.resOff, Reg.decStatus, Reg.faultCause].map (Reg.value s)
  pbuf := s.bytes .pbuf
  txbuf := s.bytes .txbuf
  rxbuf := s.bytes .rxbuf

/-- All the host's moves, one after another. -/
def runScript (s : State) : Host.Outcome State Fault Refusal := Sys2Proof.core.run s.script.length s

/-- The host's script is a run: it starts with `RESET` (rule R139). The state is the one before that first action. -/
def IsRun (s : State) : Prop := ∃ k rest, s.script = .reset k :: rest

/-- The run has faulted: after some one of its actions `FAULT_CAUSE` is not 0, whatever actions follow (rule R139). -/
def HasFaulted (s : State) : Prop :=
  ∃ n t, 1 ≤ n ∧ n ≤ s.script.length ∧ Sys2Proof.core.run n s = .next t ∧ t.faultCause ≠ 0#8

/-- The script is a run that ends normally: after its last action `FAULT_CAUSE` is 0, and it has not faulted on the
way, not even before another `RESET` among its actions (rule R139). -/
def EndsNormally (s : State) : Prop :=
  IsRun s ∧ (∃ t, runScript s = .next t ∧ t.faultCause = 0#8) ∧ ¬ HasFaulted s

/-- The observation of a run: that of the state after its last action (rule R139). -/
def runObservation (s : State) : Option Observation :=
  match runScript s with
  | .next t => some t.observe
  | .fault _ => none
  | .refused _ => none

/-- The byte string `f` with bit `b` of its byte `i` flipped. -/
def flipBit (f : List Byte) (i b : Nat) : List Byte := f.modify i fun v => v ^^^ (1#8 <<< b)

/-- Two counters that differ in exactly one bit. -/
def CounterBitFlip (c c' : Half) : Prop := ∃ b < 16, c' = c ^^^ (1#16 <<< b)

/-- The assumption `CipherInvolutive` (rule R35). -/
def CipherInvolutive (P : Primitives) : Prop :=
  ∀ (n : Nat) (s : Vector Byte n) (c : Half) (d : Direction) (K : Key), P.cipher n (P.cipher n s c d K) c d K = s

/-- The assumption `MicDetectsBitFlip` (rule R108): `Mic` changes its value when one bit of its input changes, its
counter being the same or changed with it (as happens when the bit is one of the frame's counter field), and when one
bit of the counter alone changes. -/
structure MicDetectsBitFlip (P : Primitives) : Prop where
  input : ∀ (n : Nat) (s s' : Vector Byte n) (i b : Nat) (c c' : Half) (d : Direction) (K : Key),
    i < n → b < 8 → s'.toList = flipBit s.toList i b → (c' = c ∨ CounterBitFlip c c') → P.mic n s' c' d K ≠ P.mic n s c d K
  counter : ∀ (n : Nat) (s : Vector Byte n) (c c' : Half) (d : Direction) (K : Key),
    CounterBitFlip c c' → P.mic n s c' d K ≠ P.mic n s c d K

end Sys2Proof.Machine
end

