-- ==== Sys2Proof/Certificates/Slice0/Obligations.lean ====
section
/-! DEFINITION. What is claimed of the machine, one proposition per obligation. -/

open Sys2Proof Sys2Proof.Machine

/-! ## Command words -/

/-- The command words of 95_test_vectors.md §3.1 and §4, written out in hexadecimal, decode to the commands the spec
names, and the reserved ones to none (rules R60, R61). -/
def Obligations.SpecCommandWordsDecode : Prop :=
  decode 0x0103#16 = .ok (.encode 3) ∧ decode 0x0100#16 = .ok (.encode 0) ∧ decode 0x0144#16 = .ok (.encode 68)
    ∧ decode 0x0210#16 = .ok (.decode 16) ∧ decode 0x0241#16 = .ok (.decode 65)
    ∧ decode 0x0000#16 = .error (.reservedOp 0x00#8) ∧ decode 0x0300#16 = .error (.reservedOp 0x03#8)
    ∧ decode 0xFF00#16 = .error (.reservedOp 0xFF#8)

/-- Rule R60: the word is its `OP` byte above its `LEN` byte, and `LEN` is an unsigned integer from 0 to 255. -/
def Obligations.WordsDecodeByTheirTwoFields : Prop :=
  ∀ op len : Byte,
    decode (op ++ len) =
      if op = 0x01#8 then .ok (.encode len.toNat)
      else if op = 0x02#8 then .ok (.decode len.toNat)
      else .error (.reservedOp op)

/-- Decoding and encoding agree both ways: every well-formed command is read back from its word, and every word that is
a command is the word of that command. -/
def Obligations.DecodeAndEncodeAgree : Prop :=
  (∀ i : Instr, i.wellFormed = true → decode (encode i) = .ok i)
    ∧ ∀ (w : Half) (i : Instr), decode w = .ok i → i.wellFormed = true ∧ encode i = w

/-- Rule R77, the assembler: mnemonics whatever their capitals, decimal or `0x` operands, an error outside 0 to 255 and
for any other name, and the words `0x0100 | n` and `0x0200 | L`. -/
def Obligations.AssemblerFollowsItsRule : Prop :=
  ∀ (name : List Char) (n : Nat),
    (name.map Char.toLower = ['e', 'n', 'c', 'o', 'd', 'e'] →
        assemble (name ++ ' ' :: Nat.toDigits 10 n)
            = (if n ≤ 255 then .ok (.encode n) else .error .operandOutOfRange)
          ∧ assemble (name ++ ' ' :: '0' :: 'x' :: Nat.toDigits 16 n)
            = (if n ≤ 255 then .ok (.encode n) else .error .operandOutOfRange))
      ∧ (name.map Char.toLower = ['d', 'e', 'c', 'o', 'd', 'e'] →
        assemble (name ++ ' ' :: Nat.toDigits 10 n)
            = (if n ≤ 255 then .ok (.decode n) else .error .operandOutOfRange)
          ∧ assemble (name ++ ' ' :: '0' :: 'x' :: Nat.toDigits 16 n)
            = (if n ≤ 255 then .ok (.decode n) else .error .operandOutOfRange))
      ∧ (' ' ∉ name → name.map Char.toLower ≠ ['e', 'n', 'c', 'o', 'd', 'e'] →
        name.map Char.toLower ≠ ['d', 'e', 'c', 'o', 'd', 'e'] →
        ∀ operand : List Char, assemble (name ++ ' ' :: operand) = .error .unknownMnemonic)
      ∧ (n ≤ 255 →
        encode (.encode n) = 0x0100#16 ||| BitVec.ofNat 16 n ∧ encode (.decode n) = 0x0200#16 ||| BitVec.ofNat 16 n)

/-! ## The command port -/

/-- The command port (from rule R59): a host write to `CMD` whose word is a command is one step, and that step is the command's effect; around
it the step only takes the write from the host's script. -/
def Obligations.StepRunsTheIssuedCommand : Prop :=
  ∀ (s : State) (w : Half) (rest : List HostAction) (i : Instr),
    s.script = .writeReg 0 w :: rest → decode w = .ok i → step s = exec i { s with script := rest }

/-- Rule R110 (the spec's decision D2): a word whose `OP` is neither 0x01 nor 0x02 faults with code 0x01, and nothing
else of the block changes. -/
def Obligations.ReservedWordFaults : Prop :=
  ∀ (s : State) (w : Half) (rest : List HostAction),
    s.script = .writeReg 0 w :: rest → s.faultCause = 0#8 →
    w.extractLsb' 8 8 ≠ 0x01#8 → w.extractLsb' 8 8 ≠ 0x02#8 →
    step s = .next { s with script := rest, faultCause := 0x01#8 }

/-- A halted block ignores every command word, reserved or not, and every command (from rule R113). -/
def Obligations.HaltedBlockIgnoresEveryCommand : Prop :=
  (∀ (s : State) (w : Half) (rest : List HostAction),
      s.faultCause ≠ 0#8 → s.script = .writeReg 0 w :: rest → step s = .next { s with script := rest })
    ∧ ∀ (s : State) (i : Instr), s.faultCause ≠ 0#8 → exec i s = .next s

/-- Rule R117 (the spec's decision D16): the checks of a command word in their order, exactly one outcome each; a fault
changes `FAULT_CAUSE` alone, and a command that passes them all leaves it 0. -/
def Obligations.CommandChecksInOrder : Prop :=
  ∀ (s : State) (op len : Byte) (rest : List HostAction),
    s.script = .writeReg 0 (op ++ len) :: rest →
    (s.faultCause ≠ 0#8 → step s = .next { s with script := rest })
      ∧ (s.faultCause = 0#8 →
          (op ≠ 0x01#8 → op ≠ 0x02#8 → step s = .next { s with script := rest, faultCause := 0x01#8 })
          ∧ (op = 0x01#8 →
              (s.cfg.pbufCap < len.toNat → step s = .next { s with script := rest, faultCause := 0x02#8 })
              ∧ (len.toNat ≤ s.cfg.pbufCap →
                  ((∃ j < len.toNat, s.pbuf.read j = none) →
                      step s = .next { s with script := rest, faultCause := 0x05#8 })
                  ∧ ((∀ j < len.toNat, s.pbuf.read j ≠ none) → ∃ t, step s = .next t ∧ t.faultCause = 0#8)))
          ∧ (op = 0x02#8 →
              (len.toNat < 8 → step s = .next { s with script := rest, faultCause := 0x03#8 })
              ∧ (s.cfg.decBufCap.val < len.toNat → step s = .next { s with script := rest, faultCause := 0x04#8 })
              ∧ (8 ≤ len.toNat → len.toNat ≤ s.cfg.decBufCap.val →
                  ((∃ j < len.toNat, s.rxbuf.read j = none) →
                      step s = .next { s with script := rest, faultCause := 0x05#8 })
                  ∧ ((∀ j < len.toNat, s.rxbuf.read j ≠ none) → ∃ t, step s = .next t ∧ t.faultCause = 0#8))))

/-! ## ENCODE -/

/-- Rule R85 (the spec's decisions D8, D9): ENCODE faults with code 0x02 exactly when the payload does not fit, that is
when `n + 13 > ENC_BUF_CAP`, and changes nothing else; `n = 0` is admitted. -/
def Obligations.EncodeFaultsOnOverflow : Prop :=
  ∀ (s : State) (n : Nat), s.faultCause = 0#8 →
    (n > s.cfg.pbufCap ↔ n + 13 > s.cfg.encBufCap.val)
      ∧ (n > s.cfg.pbufCap → exec (.encode n) s = .next { s with faultCause := 0x02#8 })
      ∧ ∃ t, exec (.encode 0) s = .next t ∧ t.faultCause = 0#8

/-- Rule R86 (the spec's decision D17): ENCODE reads `PBUF[0..n)`. A byte there without a value makes it fault with code
0x05 and change nothing else; with all of them written it completes, whatever the bytes beyond hold. -/
def Obligations.EncodeNeedsAWrittenPayload : Prop :=
  ∀ (s : State) (n : Nat), s.faultCause = 0#8 → n ≤ s.cfg.pbufCap →
    ((∃ i < n, s.pbuf.read i = none) → exec (.encode n) s = .next { s with faultCause := 0x05#8 })
      ∧ ((∀ i < n, s.pbuf.read i ≠ none) → ∃ t, exec (.encode n) s = .next t ∧ t.faultCause = 0#8)

/-- Rules R81 and R88, the address reversed as rule R80 says: the nine header bytes of the frame ENCODE builds. -/
def Obligations.EncodeWritesTheHeader : Prop :=
  ∀ (s : State) (n : Nat), s.faultCause = 0#8 → n ≤ s.cfg.pbufCap → (∀ i < n, s.pbuf.read i ≠ none) →
    ∃ t, exec (.encode n) s = .next t
      ∧ t.txbuf.read 0 = some s.cfg.mhdrTag
      ∧ t.txbuf.read 1 = some s.cfg.devAddr.da3
      ∧ t.txbuf.read 2 = some s.cfg.devAddr.da2
      ∧ t.txbuf.read 3 = some s.cfg.devAddr.da1
      ∧ t.txbuf.read 4 = some s.cfg.devAddr.da0
      ∧ t.txbuf.read 5 = some 0x00#8
      ∧ t.txbuf.read 6 = some (s.upcnt.extractLsb' 0 8)
      ∧ t.txbuf.read 7 = some (s.upcnt.extractLsb' 8 8)
      ∧ t.txbuf.read 8 = some 0x01#8

/-- Rules R87 and R89: ENCODE encrypts its payload in place, with the counter it found, direction 0 and `APPSKEY`, and
puts the same ciphertext into the frame right after the header. -/
def Obligations.EncodeEncryptsThePayload : Prop :=
  ∀ (s : State) (n : Nat) (p : Vector Byte n), s.faultCause = 0#8 → n ≤ s.cfg.pbufCap → s.pbuf.holds 0 p.toList →
    ∃ t, exec (.encode n) s = .next t
      ∧ t.pbuf.holds 0 (Config.cipher s.cfg n p s.upcnt .uplink s.cfg.appSKey).toList
      ∧ t.txbuf.holds 9 (Config.cipher s.cfg n p s.upcnt .uplink s.cfg.appSKey).toList

/-- Rule R83 (byte order: the spec's decision D30): the last four bytes of the frame are the MIC of the `9 + n` bytes
before them, with the counter ENCODE found, direction 0 and `NWKSKEY`. -/
def Obligations.EncodeAppendsTheMic : Prop :=
  ∀ (s : State) (n : Nat), s.faultCause = 0#8 → n ≤ s.cfg.pbufCap → (∀ i < n, s.pbuf.read i ≠ none) →
    ∃ (t : State) (pre : Vector Byte (9 + n)) (m : MicTag), exec (.encode n) s = .next t
      ∧ t.txbuf.holds 0 pre.toList
      ∧ m = Config.mic s.cfg (9 + n) pre s.upcnt .uplink s.cfg.nwkSKey
      ∧ t.txbuf.read (9 + n) = some m.m0
      ∧ t.txbuf.read (9 + n + 1) = some m.m1
      ∧ t.txbuf.read (9 + n + 2) = some m.m2
      ∧ t.txbuf.read (9 + n + 3) = some m.m3

/-- Rule R82 (the spec's decision D10), with the length of rule R90: a completed ENCODE adds 1 to `UPCNT` modulo 2^16
and reports the length `13 + n`, which is at most `ENC_BUF_CAP`; one that faults or is ignored leaves `UPCNT` alone. -/
def Obligations.EncodeAdvancesTheCounter : Prop :=
  (∀ (s : State) (n : Nat), s.faultCause = 0#8 → n ≤ s.cfg.pbufCap → (∀ i < n, s.pbuf.read i ≠ none) →
      ∃ (t : State) (r : Byte), exec (.encode n) s = .next t
        ∧ t.upcnt.toNat = (s.upcnt.toNat + 1) % 2 ^ 16
        ∧ t.resLen = some r ∧ r.toNat = 13 + n ∧ 13 + n ≤ s.cfg.encBufCap.val)
    ∧ ∀ (s t : State) (n : Nat), exec (.encode n) s = .next t → t.faultCause ≠ 0#8 → t.upcnt = s.upcnt

/-- Rule R91 (the spec's decision D22), the frame of ENCODE: a completed ENCODE changes exactly `PBUF[0..n)`,
`TXBUF[0..13+n)`, `UPCNT` and `RES_LEN`. -/
def Obligations.EncodeChangesNothingElse : Prop :=
  ∀ (s : State) (n : Nat), s.faultCause = 0#8 → n ≤ s.cfg.pbufCap → (∀ i < n, s.pbuf.read i ≠ none) →
    ∃ t, exec (.encode n) s = .next t
      ∧ (∀ a, n ≤ a → t.pbuf.read a = s.pbuf.read a)
      ∧ (∀ a, 13 + n ≤ a → t.txbuf.read a = s.txbuf.read a)
      ∧ t.rxbuf = s.rxbuf ∧ t.resOff = s.resOff ∧ t.decStatus = s.decStatus ∧ t.faultCause = s.faultCause
      ∧ t.cfg = s.cfg ∧ t.script = s.script ∧ t.hostData = s.hostData

/-- Determinism of ENCODE (from rule R92): two blocks in the same configuration, with the same counter and the same
payload bytes, build the same frame, the same ciphertext and the same results, whatever else they hold. -/
def Obligations.EncodeDependsOnlyOnItsInputs : Prop :=
  ∀ (s s' t t' : State) (n : Nat),
    s.faultCause = 0#8 → s'.faultCause = 0#8 → s.cfg = s'.cfg → s.upcnt = s'.upcnt →
    (∀ i < n, s.pbuf.read i = s'.pbuf.read i) →
    exec (.encode n) s = .next t → exec (.encode n) s' = .next t' →
    t.faultCause = t'.faultCause ∧ t.upcnt = t'.upcnt
      ∧ (∀ i < n, t.pbuf.read i = t'.pbuf.read i)
      ∧ (t.faultCause = 0#8 → t.resLen = t'.resLen ∧ ∀ i < 13 + n, t.txbuf.read i = t'.txbuf.read i)

/-- Counter monotonicity over a whole run (from rules R92, R137 and R139): moves without a reset that leave `FAULT_CAUSE`
0 have advanced `UPCNT` by the number of ENCODEs among them, modulo 2^16, whatever else the host did; and a run that ends
normally (as log entry 11 reads the rule), with no reset but its first action, ends with that number. -/
def Obligations.CounterCountsTheEncodesOfARun : Prop :=
  (∀ s t : State, (∀ a ∈ s.script, a.noReset = true) → runScript s = .next t → t.faultCause = 0#8 →
      t.upcnt.toNat = (s.upcnt.toNat + encodesIssued s.script) % 2 ^ 16)
    ∧ ∀ (s : State) (k : Option SessionConfig) (rest : List HostAction),
        s.script = .reset k :: rest → (∀ a ∈ rest, a.noReset = true) → EndsNormally s →
        ∃ t, runScript s = .next t ∧ t.upcnt.toNat = encodesIssued rest % 2 ^ 16

/-! ## DECODE -/

/-- Rule R96 (the spec's decisions D11, D12): the frame lengths DECODE does not admit, each with its fault and no other
change. -/
def Obligations.DecodeFaultsOnLength : Prop :=
  ∀ (s : State) (len : Nat), s.faultCause = 0#8 →
    (len < 8 → exec (.decode len) s = .next { s with faultCause := 0x03#8 })
      ∧ (len > s.cfg.decBufCap.val → exec (.decode len) s = .next { s with faultCause := 0x04#8 })

/-- Rule R97 (the spec's decision D17): DECODE reads `RXBUF[0..L)`. A byte there without a value makes it fault with code
0x05 and change nothing else; with all of them written it completes. -/
def Obligations.DecodeNeedsAWrittenFrame : Prop :=
  ∀ (s : State) (len : Nat), s.faultCause = 0#8 → 8 ≤ len → len ≤ s.cfg.decBufCap.val →
    ((∃ i < len, s.rxbuf.read i = none) → exec (.decode len) s = .next { s with faultCause := 0x05#8 })
      ∧ ((∀ i < len, s.rxbuf.read i ≠ none) → ∃ t, exec (.decode len) s = .next t ∧ t.faultCause = 0#8)

/-- Rule R100 with the MIC and the counter of rules R99 and R93: a frame whose last four bytes are not the MIC of the
bytes before them is reported with `-1` and code 2, and nothing else changes. -/
def Obligations.DecodeRejectsAWrongMic : Prop :=
  ∀ (s : State) (pe : Nat) (pre : Vector Byte pe) (m : MicTag) (lo hi : Byte),
    s.faultCause = 0#8 → 4 ≤ pe → pe + 4 ≤ s.cfg.decBufCap.val →
    s.rxbuf.holds 0 (pre.toList ++ [m.m0, m.m1, m.m2, m.m3]) → s.rxbuf.read 6 = some lo → s.rxbuf.read 7 = some hi →
    Config.mic s.cfg pe pre (hi ++ lo) s.cfg.decodeDirection s.cfg.nwkSKey ≠ m →
    exec (.decode (pe + 4)) s = .next { s with resOff := some 0xFF#8, decStatus := 0x02#8 }

/-- Rule R102 with the payload length of rule R101: a frame whose MIC matches and whose payload length
`pe - (9 + k)` is zero or negative is reported with `-1` and code 3, and nothing else changes. -/
def Obligations.DecodeReportsAnEmptyPayload : Prop :=
  ∀ (s : State) (pe : Nat) (pre : Vector Byte pe) (m : MicTag) (fctrl lo hi : Byte),
    s.faultCause = 0#8 → 4 ≤ pe → pe + 4 ≤ s.cfg.decBufCap.val →
    s.rxbuf.holds 0 (pre.toList ++ [m.m0, m.m1, m.m2, m.m3]) →
    s.rxbuf.read 5 = some fctrl → s.rxbuf.read 6 = some lo → s.rxbuf.read 7 = some hi →
    Config.mic s.cfg pe pre (hi ++ lo) s.cfg.decodeDirection s.cfg.nwkSKey = m →
    (pe : Int) - (9 + (fctrl.toNat % 16 : Nat)) ≤ 0 →
    exec (.decode (pe + 4)) s = .next { s with resOff := some 0xFF#8, decStatus := 0x03#8 }

/-- Rules R93, R103 and R105, with the offset of rule R94: a frame of header and options `hdr` (`9 + k` bytes), a payload `ct` of at least one
byte and a matching MIC is decrypted in place, with the frame's own counter, `DECODE_DIRECTION` and `APPSKEY`, and its
payload offset is reported. -/
def Obligations.DecodeDecryptsThePayload : Prop :=
  ∀ (s : State) (off plen : Nat) (hdr : Vector Byte off) (ct : Vector Byte plen) (m : MicTag) (fctrl lo hi : Byte),
    s.faultCause = 0#8 → off + plen + 4 ≤ s.cfg.decBufCap.val →
    s.rxbuf.holds 0 (hdr.toList ++ ct.toList ++ [m.m0, m.m1, m.m2, m.m3]) →
    s.rxbuf.read 5 = some fctrl → s.rxbuf.read 6 = some lo → s.rxbuf.read 7 = some hi →
    off = 9 + fctrl.toNat % 16 → 0 < plen →
    Config.mic s.cfg (off + plen) (hdr ++ ct) (hi ++ lo) s.cfg.decodeDirection s.cfg.nwkSKey = m →
    ∃ t, exec (.decode (off + plen + 4)) s = .next t
      ∧ t.rxbuf.holds off (Config.cipher s.cfg plen ct (hi ++ lo) s.cfg.decodeDirection s.cfg.appSKey).toList
      ∧ (∀ a, (a < off ∨ off + plen ≤ a) → t.rxbuf.read a = s.rxbuf.read a)
      ∧ t.resOff = some (BitVec.ofNat 8 off) ∧ t.decStatus = 0x01#8 ∧ t.faultCause = 0#8

/-- The frame of DECODE (from rule R107, the spec's decision D22): it changes `RES_OFF`, `DEC_STATUS` and, on success only,
the bytes from the reported offset up to the payload end, and nothing else. -/
def Obligations.DecodeChangesNothingElse : Prop :=
  ∀ (s : State) (len : Nat), s.faultCause = 0#8 → 8 ≤ len → len ≤ s.cfg.decBufCap.val →
    (∀ i < len, s.rxbuf.read i ≠ none) →
    ∃ t, exec (.decode len) s = .next t
      ∧ (∀ a, t.rxbuf.read a ≠ s.rxbuf.read a →
          t.decStatus = 0x01#8 ∧ ∃ r, t.resOff = some r ∧ r.toNat ≤ a ∧ a < len - 4)
      ∧ (t.decStatus ≠ 0x01#8 → t.rxbuf = s.rxbuf)
      ∧ t.upcnt = s.upcnt ∧ t.resLen = s.resLen ∧ t.pbuf = s.pbuf ∧ t.txbuf = s.txbuf
      ∧ t.faultCause = s.faultCause ∧ t.cfg = s.cfg ∧ t.script = s.script ∧ t.hostData = s.hostData

/-- What DECODE reads (from rules R64, R104 and R106): whatever the primitives, two blocks that agree on `RXBUF[0..L)`,
`DEC_BUF_CAP`, `DECODE_DIRECTION` and the keys report the same and decrypt the same, whatever their counters, device
addresses, header tags, other buffers and earlier results. -/
def Obligations.DecodeSeesOnlyItsFrame : Prop :=
  ∀ (P : Primitives) (s s' t t' : State) (len : Nat),
    s.faultCause = 0#8 → s'.faultCause = 0#8 →
    s.cfg.decBufCap = s'.cfg.decBufCap → s.cfg.decodeDirection = s'.cfg.decodeDirection →
    s.cfg.nwkSKey = s'.cfg.nwkSKey → s.cfg.appSKey = s'.cfg.appSKey →
    (∀ i < len, s.rxbuf.read i = s'.rxbuf.read i) →
    decodeWith P len s = .next t → decodeWith P len s' = .next t' →
    t.faultCause = t'.faultCause ∧ (∀ i < len, t.rxbuf.read i = t'.rxbuf.read i)
      ∧ (t.faultCause = 0#8 → t.resOff = t'.resOff ∧ t.decStatus = t'.decStatus)

/-- The payload-offset calculator (from rule R94): `off = 9 + k`, from 9 to 24, with `k` the low four bits of the frame-control
byte; bits [7:4] do not matter. -/
def Obligations.PayloadOffsetIsNinePlusLowNibble : Prop :=
  ∀ v : Byte, payloadOffset v = 9 + (v &&& 0x0F#8).toNat ∧ 9 ≤ payloadOffset v ∧ payloadOffset v ≤ 24
    ∧ ∀ w : Byte, v.extractLsb' 0 4 = w.extractLsb' 0 4 → payloadOffset w = payloadOffset v

/-- The options-length offset property (from rule R108), whatever the primitives: two frames that decode, the second with
`k` in its FCtrl low nibble where the first has 0, give offsets that differ by exactly `k`. -/
def Obligations.OptionsShiftThePayloadOffset : Prop :=
  ∀ (P P' : Primitives) (s s' t t' : State) (len len' k : Nat) (v v' r r' : Byte),
    s.faultCause = 0#8 → s'.faultCause = 0#8 →
    s.rxbuf.read 5 = some v → s'.rxbuf.read 5 = some v' → v.toNat % 16 = 0 → v'.toNat % 16 = k →
    decodeWith P len s = .next t → decodeWith P' len' s' = .next t' →
    t.faultCause = 0#8 → t'.faultCause = 0#8 → t.decStatus = 0x01#8 → t'.decStatus = 0x01#8 →
    t.resOff = some r → t'.resOff = some r' →
    r'.toNat = r.toNat + k

/-- The round-trip property in the loopback harness (from rule R108), for every pair of primitives: the frame ENCODE
builds, copied to `RXBUF` and decoded with direction 0, is accepted, its payload starts at 9 and, if `Cipher` is its
own inverse, is the plaintext ENCODE was given. A frame without payload is reported empty. -/
def Obligations.LoopbackRoundTrip : Prop :=
  ∀ (P : Primitives) (s : State) (n : Nat) (p : Vector Byte n),
    s.faultCause = 0#8 → s.cfg.decodeDirection = .uplink → n ≤ s.cfg.pbufCap → 13 + n ≤ s.cfg.decBufCap.val →
    s.pbuf.holds 0 p.toList →
    ∃ t u, encodeWith P n s = .next t ∧ decodeWith P (13 + n) (hostCopyFrame (13 + n) t) = .next u
      ∧ u.faultCause = 0#8
      ∧ (1 ≤ n → u.resOff = some 9#8 ∧ u.decStatus = 0x01#8 ∧ (CipherInvolutive P → u.rxbuf.holds 9 p.toList))
      ∧ (n = 0 → u.resOff = some 0xFF#8 ∧ u.decStatus = 0x03#8)

/-- MIC rejection (from rule R108), under the assumption `MicDetectsBitFlip`: of a frame whose MIC matches, flip any one
bit of the bytes the MIC covers, and DECODE reports a MIC mismatch and changes nothing else. -/
def Obligations.FlippedFrameBitIsRejected : Prop :=
  ∀ (P : Primitives) (s t : State) (len i b : Nat) (f : List Byte) (m' : Memory),
    MicDetectsBitFlip P → s.faultCause = 0#8 → decodeWith P len s = .next t → t.faultCause = 0#8 →
    t.decStatus ≠ 0x02#8 → f.length = len → s.rxbuf.holds 0 f → i < len - 4 → b < 8 →
    m'.holds 0 (flipBit f i b) →
    decodeWith P len { s with rxbuf := m' }
      = .next { s with rxbuf := m', resOff := some 0xFF#8, decStatus := 0x02#8 }

/-- A flipped bit of the MIC field itself (from rule R108), whatever the primitives: where the field does not overlap the
counter bytes 6 and 7, DECODE reports a MIC mismatch and changes nothing else. -/
def Obligations.FlippedMicBitIsRejected : Prop :=
  ∀ (P : Primitives) (s t : State) (len i b : Nat) (f : List Byte) (m' : Memory),
    s.faultCause = 0#8 → decodeWith P len s = .next t → t.faultCause = 0#8 →
    t.decStatus ≠ 0x02#8 → f.length = len → s.rxbuf.holds 0 f → len - 4 ≤ i → i < len → i ≠ 6 → i ≠ 7 → b < 8 →
    m'.holds 0 (flipBit f i b) →
    decodeWith P len { s with rxbuf := m' }
      = .next { s with rxbuf := m', resOff := some 0xFF#8, decStatus := 0x02#8 }

/-! ## The host -/

/-- Rule R28 (the spec's decision D26), with the indices of rule R27: what a host read of each register index returns, with no side
effect on the block, and that a host write to any index but 0 changes nothing. -/
def Obligations.HostRegisterAccess : Prop :=
  ∀ (s : State) (index : Fin 256) (w : Half) (rest : List HostAction),
    (s.script = .readReg index :: rest →
        step s = .next { s with
          script := rest
          hostData :=
            if index = 1 then some (.half s.upcnt)
            else if index = 2 then s.resLen.map .byte
            else if index = 3 then s.resOff.map .byte
            else if index = 4 then some (.byte s.decStatus)
            else if index = 5 then some (.byte s.faultCause)
            else none })
      ∧ (s.script = .writeReg index w :: rest → index ≠ 0 → step s = .next { s with script := rest })

/-- Rule R42 (the spec's decision D20), with rules R43 and R46: a write inside a buffer gives that one byte its value and
changes no other byte of any buffer and no register; a write outside changes nothing; a read changes nothing of the
block and returns the byte, or no value where there is none or outside the buffer. -/
def Obligations.HostBufferAccess : Prop :=
  ∀ (s : State) (b : Buffer) (i : Nat) (v : Byte) (rest : List HostAction),
    (s.script = .writeByte b i v :: rest →
        (i < SessionConfig.cap s.cfg b →
          ∃ t, step s = .next t
            ∧ (∀ b' j, (t.buf b').read j = if b' = b ∧ j = i then some v else (s.buf b').read j)
            ∧ t.upcnt = s.upcnt ∧ t.resLen = s.resLen ∧ t.resOff = s.resOff ∧ t.decStatus = s.decStatus
            ∧ t.faultCause = s.faultCause ∧ t.cfg = s.cfg ∧ t.script = rest ∧ t.hostData = s.hostData)
        ∧ (SessionConfig.cap s.cfg b ≤ i → step s = .next { s with script := rest }))
      ∧ (s.script = .readByte b i :: rest →
          step s = .next { s with
            script := rest
            hostData := if i < SessionConfig.cap s.cfg b then ((s.buf b).read i).map .byte else none })

/-- `COPY TXBUF[0..N) -> RXBUF[0]` as a script (from rules R42 and R78), for every `N`: it moves the bytes and nothing
else, and a byte that would land outside `RXBUF` goes nowhere. That a byte of `TXBUF` without a value, or an index outside
`TXBUF`, leaves the copy without a value is the model's choice (log entry 6). -/
def Obligations.CopyMovesTheTransmitBytes : Prop :=
  ∀ (s : State) (n : Nat), s.script = scriptCopy n →
    ∃ t, runScript s = .next t
      ∧ (∀ i, i < n → i < s.cfg.decBufCap.val →
          t.rxbuf.read i = if i < s.cfg.encBufCap.val then s.txbuf.read i else none)
      ∧ (∀ i, (n ≤ i ∨ s.cfg.decBufCap.val ≤ i) → t.rxbuf.read i = s.rxbuf.read i)
      ∧ t.txbuf = s.txbuf ∧ t.pbuf = s.pbuf ∧ t.upcnt = s.upcnt ∧ t.resLen = s.resLen ∧ t.resOff = s.resOff
      ∧ t.decStatus = s.decStatus ∧ t.faultCause = s.faultCause ∧ t.cfg = s.cfg ∧ t.hostData = s.hostData

/-- Ordering (from rule R56): a read returns the last write to the same byte, whatever writes to other bytes and register
reads stand between. -/
def Obligations.ReadReturnsTheLastWrite : Prop :=
  ∀ (s : State) (b : Buffer) (i : Nat) (v : Byte) (mid : List HostAction),
    i < SessionConfig.cap s.cfg b →
    (∀ a ∈ mid, (∃ j, a = .readReg j) ∨ (∃ b' j, a = .readByte b' j)
      ∨ (∃ b' j u, a = .writeByte b' j u ∧ ¬ (b' = b ∧ j = i))) →
    s.script = .writeByte b i v :: (mid ++ [.readByte b i]) →
    ∃ t, runScript s = .next t ∧ t.hostData = some (.byte v)

/-- Host reads have no side effect, and host accesses to a buffer are idempotent (from rule R53): no read changes what is
observed of the block, and doing a read or a write twice leaves what doing it once leaves. -/
def Obligations.HostAccessesAreIdempotent : Prop :=
  (∀ (s t : State) (a : HostAction) (rest : List HostAction),
      ((∃ index, a = .readReg index) ∨ ∃ b i, a = .readByte b i) → s.script = a :: rest → step s = .next t →
      t.observe = s.observe)
    ∧ ∀ (s : State) (a : HostAction), ((∃ b i, a = .readByte b i) ∨ ∃ b i v, a = .writeByte b i v) →
        runScript { s with script := [a, a] } = runScript { s with script := [a] }

/-- Rule R127 (the spec's decision D18): reset, from every state, halted or not, with the configuration kept or
replaced; and the configuration changes in no other step. -/
def Obligations.ResetSetsEveryRegister : Prop :=
  (∀ (s : State) (k : Option SessionConfig) (rest : List HostAction), s.script = .reset k :: rest →
      step s = .next
        { upcnt := 0#16, resLen := none, resOff := none, decStatus := 0#8, faultCause := 0#8, pbuf := [], txbuf := [],
          rxbuf := [], cfg := k.getD s.cfg, script := rest, hostData := s.hostData })
    ∧ ∀ s t : State, step s = .next t → t.cfg ≠ s.cfg → ∃ k rest, s.script = .reset (some k) :: rest ∧ t.cfg = k

/-- The reset values (from rules R18 and R29, the spec's decision D18), and no byte of a buffer with a value. -/
def Obligations.ResetStateHasTheSpecsValues : Prop :=
  State.reset.upcnt = 0#16 ∧ State.reset.resLen = none ∧ State.reset.resOff = none ∧ State.reset.decStatus = 0#8
    ∧ State.reset.faultCause = 0#8 ∧ ∀ (b : Buffer) (i : Nat), (State.reset.buf b).read i = none

/-- An idle block holds its state (from rules R125 and R128). That a step with no host move left is an idle step is the
model's reading (log entry 2). -/
def Obligations.IdleBlockHoldsItsState : Prop := ∀ s : State, s.script = [] → step s = .next s

/-! ## Rules of the whole machine -/

/-- The reset state meets the invariant. -/
def Obligations.ResetMeetsTheInvariant : Prop := Inv State.reset

/-- Every step keeps the invariant: the buffers stay in canonical form and inside their sizes, `RES_LEN` is a legal
length whose frame bytes all have values, `RES_OFF` and `DEC_STATUS` agree, and `FAULT_CAUSE` holds no reserved code
(from rules R23 to R25, R41 and R109). -/
def Obligations.EveryStepKeepsTheInvariant : Prop := ∀ s t : State, Inv s → step s = .next t → Inv t

/-- Every step answers a next state: a command that completes, faults or is ignored (rules R12, R112, R113), a host
access to a register or a buffer (rules R28, R42), a reset (rule R127), and the idle block (rules R125, R128). That a
fault is a next state of the machine is the model's reading (log entry 3), and so is that a step with no host move left
is an idle step (log entry 2). -/
def Obligations.EveryStepAnswersAState : Prop := ∀ s : State, ∃ t, step s = .next t

/-- Who moves the counter (from rules R19 and R127): a completed ENCODE, by 1, or reset, to 0. -/
def Obligations.OnlyEncodeAndResetMoveTheCounter : Prop :=
  ∀ s t : State, step s = .next t → t.upcnt ≠ s.upcnt →
    (∃ k rest, s.script = .reset k :: rest ∧ t.upcnt = 0#16)
      ∨ ∃ w n rest, s.script = .writeReg 0 w :: rest ∧ decode w = .ok (.encode n) ∧ s.faultCause = 0#8
          ∧ t.faultCause = 0#8 ∧ t.resLen = some (BitVec.ofNat 8 (13 + n)) ∧ t.upcnt = s.upcnt + 1#16

/-- Rules R26 and R112 (the spec's decision D16): a step leaves `FAULT_CAUSE` alone, or is a reset that clears it, or is
a command that faults while it is 0 and then changes nothing else of the block; the code is one of 1 to 5. -/
def Obligations.FaultsArePreciseAndSticky : Prop :=
  ∀ s t : State, step s = .next t →
    t.faultCause = s.faultCause
      ∨ (∃ k rest, s.script = .reset k :: rest ∧ t.faultCause = 0#8)
      ∨ (s.faultCause = 0#8 ∧ 1 ≤ t.faultCause.toNat ∧ t.faultCause.toNat ≤ 5
          ∧ ∃ w rest, s.script = .writeReg 0 w :: rest ∧ t = { s with script := rest, faultCause := t.faultCause })

/-- Each result register has one writer besides reset (from rules R23, R24, R25 and R136). -/
def Obligations.ResultRegistersHaveOneWriter : Prop :=
  ∀ s t : State, step s = .next t → (∀ k rest, s.script ≠ .reset k :: rest) →
    (t.resLen ≠ s.resLen → ∃ w n rest, s.script = .writeReg 0 w :: rest ∧ decode w = .ok (.encode n))
      ∧ (t.resOff ≠ s.resOff ∨ t.decStatus ≠ s.decStatus →
          ∃ w len rest, s.script = .writeReg 0 w :: rest ∧ decode w = .ok (.decode len))

/-- A halted block under a whole script (from rules R113 and R118): with no reset among the moves, whatever else the host
does, the block stays faulted with its first cause and every register keeps its value. -/
def Obligations.HaltedRunKeepsItsRegisters : Prop :=
  ∀ s t : State, s.faultCause ≠ 0#8 → (∀ a ∈ s.script, a.noReset = true) → runScript s = .next t →
    t.faultCause = s.faultCause ∧ t.upcnt = s.upcnt ∧ t.resLen = s.resLen ∧ t.resOff = s.resOff
      ∧ t.decStatus = s.decStatus ∧ t.cfg = s.cfg

/-- The keys cannot be read (from rules R22 and R120): two blocks that differ only in their keys answer every host read
alike. -/
def Obligations.KeysCannotBeRead : Prop :=
  ∀ (s t t' : State) (k1 k2 : Key) (a : HostAction) (rest : List HostAction),
    ((∃ index, a = .readReg index) ∨ ∃ b i, a = .readByte b i) → s.script = a :: rest →
    step s = .next t → step { s with cfg := { s.cfg with nwkSKey := k1, appSKey := k2 } } = .next t' →
    t'.hostData = t.hostData

/-! ## Runs -/

/-- The end of a run (from rule R139). A run ends normally exactly when it starts with `RESET` and no action of it leaves
`FAULT_CAUSE` other than 0; a run that is faulted after some of its actions has faulted and does not end normally, whatever
actions follow, another `RESET` among them; and what is observed of it is the registers by index and the bytes of the
three buffers after its last action. Counting `FAULT_CAUSE` after each of the run's own actions, and not before its first,
is the model's reading (log entry 11). -/
def Obligations.RunsEndAsTheRuleSays : Prop :=
  ∀ s : State,
    (EndsNormally s ↔ (∃ k rest, s.script = .reset k :: rest) ∧ ∀ pre post : List HostAction,
        s.script = pre ++ post → pre ≠ [] → ∃ m, runScript { s with script := pre } = .next m ∧ m.faultCause = 0#8)
      ∧ (∀ (pre post : List HostAction) (m : State), s.script = pre ++ post → pre ≠ [] →
          runScript { s with script := pre } = .next m → m.faultCause ≠ 0#8 → HasFaulted s ∧ ¬ EndsNormally s)
      ∧ ∃ t, runScript s = .next t ∧ runObservation s = some
          { registers := [none, some (.half t.upcnt), t.resLen.map .byte, t.resOff.map .byte, some (.byte t.decStatus),
              some (.byte t.faultCause)]
            pbuf := (List.range t.cfg.pbufCap).map t.pbuf.read
            txbuf := (List.range t.cfg.encBufCap.val).map t.txbuf.read
            rxbuf := (List.range t.cfg.decBufCap.val).map t.rxbuf.read }

/-- A run starts afresh (from rules R127, R139 and R141): two runs of the same actions under the same configuration are
observed alike and end normally alike (as log entry 11 reads rule R139), whatever the block held before, faulted or not,
and whatever the host had read. -/
def Obligations.RunDependsOnlyOnItsActions : Prop :=
  ∀ (s s' : State) (k : Option SessionConfig) (rest : List HostAction),
    s.script = .reset k :: rest → s'.script = .reset k :: rest → k.getD s.cfg = k.getD s'.cfg →
    runObservation s = runObservation s' ∧ (EndsNormally s ↔ EndsNormally s')
end

