-- ==== Sys2Proof/Laws/Memory.lean ====
section
/-! SUPPORT. The laws of a buffer: reading after writing, the canonical form and the size, and byte ranges. -/

namespace Sys2Proof.Machine

@[simp] theorem read_nil (a : Nat) : Memory.read [] a = none := rfl

theorem read_cons (b : Nat) (v : Byte) (m : Memory) (a : Nat) :
    Memory.read ((b, v) :: m) a = if a = b then some v else Memory.read m a := rfl

@[simp] theorem read_write_same (m : Memory) (a : Nat) (v : Byte) : (m.write a v).read a = some v := by
  induction m with
  | nil => simp [Memory.write, Memory.read]
  | cons x m ih =>
    obtain ⟨b, w⟩ := x
    unfold Memory.write
    split
    · simp [Memory.read]
    · split
      · simp [Memory.read]
      · simp [Memory.read, *]

theorem read_write_other (m : Memory) {a a' : Nat} (v : Byte) (h : a' ≠ a) : (m.write a v).read a' = m.read a' := by
  induction m with
  | nil => simp [Memory.write, Memory.read, h]
  | cons x m ih =>
    obtain ⟨b, w⟩ := x
    unfold Memory.write
    split
    · simp [Memory.read, h]
    · split
      · subst_vars; simp [Memory.read, h]
      · simp [Memory.read, ih]

theorem mem_write {m : Memory} {a : Nat} {v : Byte} {x : Host.Cell} (h : x ∈ m.write a v) : x = (a, v) ∨ x ∈ m := by
  induction m with
  | nil => simpa [Memory.write] using h
  | cons y m ih =>
    obtain ⟨b, w⟩ := y
    unfold Memory.write at h
    split at h
    · simpa using h
    · split at h
      · rcases List.mem_cons.1 h with h | h
        · exact .inl h
        · exact .inr (List.mem_cons_of_mem _ h)
      · rcases List.mem_cons.1 h with h | h
        · exact .inr (by simp [h])
        · exact (ih h).imp_right (List.mem_cons_of_mem _)

theorem write_wf {m : Memory} (a : Nat) (v : Byte) (h : m.wf) : (m.write a v).wf := by
  induction m with
  | nil => simp [Memory.write, Memory.wf]
  | cons y m ih =>
    obtain ⟨b, w⟩ := y
    obtain ⟨hb, hm⟩ := List.pairwise_cons.1 h
    unfold Memory.write
    split
    · rename_i hab
      refine List.pairwise_cons.2 ⟨fun x hx => ?_, h⟩
      rcases List.mem_cons.1 hx with rfl | hx
      · exact hab
      · exact Nat.lt_trans hab (hb x hx)
    · split
      · subst_vars; exact List.pairwise_cons.2 ⟨hb, hm⟩
      · refine List.pairwise_cons.2 ⟨fun x hx => ?_, ih hm⟩
        rcases mem_write hx with rfl | hx
        · exact Nat.lt_of_le_of_ne (Nat.not_lt.1 ‹_›) (Ne.symm ‹_›)
        · exact hb x hx

theorem write_inside {m : Memory} {cap a : Nat} (v : Byte) (ha : a < cap) (h : m.inside cap) :
    (m.write a v).inside cap := fun x hx => by
  rcases mem_write hx with rfl | hx
  · exact ha
  · exact h x hx

theorem read_erase (m : Memory) (a a' : Nat) : (m.erase a).read a' = if a' = a then none else m.read a' := by
  induction m with
  | nil => simp [Memory.erase]
  | cons y m ih =>
    obtain ⟨b, w⟩ := y
    unfold Memory.erase at ih ⊢
    by_cases hb : b = a
    · subst hb
      simp only [List.filter_cons, ne_eq, not_true_eq_false, decide_false, Bool.false_eq_true, if_false, ih]
      split <;> simp_all [Memory.read]
    · simp only [List.filter_cons, ne_eq, hb, not_false_eq_true, decide_true, if_true, read_cons, ih]
      split <;> split <;> simp_all

theorem erase_wf {m : Memory} (a : Nat) (h : m.wf) : (m.erase a).wf := List.Pairwise.filter _ h

theorem erase_inside {m : Memory} {cap : Nat} (a : Nat) (h : m.inside cap) : (m.erase a).inside cap :=
  fun x hx => h x (List.mem_of_mem_filter hx)

@[simp] theorem read_put_same (m : Memory) (a : Nat) (v : Option Byte) : (m.put a v).read a = v := by
  cases v <;> simp [Memory.put, read_erase]

theorem read_put_other (m : Memory) {a a' : Nat} (v : Option Byte) (h : a' ≠ a) : (m.put a v).read a' = m.read a' := by
  cases v <;> simp [Memory.put, read_erase, read_write_other, h]

theorem put_wf {m : Memory} (a : Nat) (v : Option Byte) (h : m.wf) : (m.put a v).wf := by
  cases v
  · exact erase_wf a h
  · exact write_wf a _ h

theorem put_inside {m : Memory} {cap a : Nat} (v : Option Byte) (ha : a < cap) (h : m.inside cap) :
    (m.put a v).inside cap := by
  cases v
  · exact erase_inside a h
  · exact write_inside _ ha h

/-- An index outside the buffer reads as no value. -/
theorem read_outside {m : Memory} {cap a : Nat} (h : m.inside cap) (ha : cap ≤ a) : m.read a = none := by
  induction m with
  | nil => rfl
  | cons y m ih =>
    obtain ⟨b, w⟩ := y
    have hb : b < cap := h _ List.mem_cons_self
    rw [read_cons, if_neg (by omega)]
    exact ih fun x hx => h x (List.mem_cons_of_mem _ hx)

/-! ## Byte ranges -/

theorem writeRange_wf {m : Memory} (a : Nat) (vs : List Byte) (h : m.wf) : (m.writeRange a vs).wf := by
  induction vs generalizing m a with
  | nil => exact h
  | cons v vs ih => exact ih _ (write_wf a v h)

theorem writeRange_inside {m : Memory} {cap a : Nat} (vs : List Byte) (ha : a + vs.length ≤ cap) (h : m.inside cap) :
    (m.writeRange a vs).inside cap := by
  induction vs generalizing m a with
  | nil => exact h
  | cons v vs ih =>
    simp only [List.length_cons] at ha
    exact ih (by omega) (write_inside v (by omega) h)

/-- What a range write leaves at any index. -/
theorem read_writeRange (m : Memory) (a : Nat) (vs : List Byte) (i : Nat) :
    (m.writeRange a vs).read i = if a ≤ i ∧ i < a + vs.length then vs[i - a]? else m.read i := by
  induction vs generalizing m a with
  | nil => simp only [Memory.writeRange, List.length_nil]; rw [if_neg (by omega)]
  | cons v vs ih =>
    simp only [Memory.writeRange, ih, List.length_cons]
    by_cases h : a = i
    · subst h
      rw [if_neg (by omega), if_pos (by omega)]
      simp
    · by_cases hin : a + 1 ≤ i ∧ i < a + 1 + vs.length
      · rw [if_pos hin, if_pos (by omega), show i - a = (i - (a + 1)) + 1 by omega]
        simp
      · rw [if_neg hin, if_neg (by omega), read_write_other _ _ (Ne.symm h)]

theorem holds_writeRange (m : Memory) (a : Nat) (vs : List Byte) : (m.writeRange a vs).holds a vs := fun i hi => by
  rw [read_writeRange, if_pos (by omega), Nat.add_sub_cancel_left]

theorem read_writeRange_outside (m : Memory) {a : Nat} (vs : List Byte) {i : Nat} (h : i < a ∨ a + vs.length ≤ i) :
    (m.writeRange a vs).read i = m.read i := by
  rw [read_writeRange, if_neg (by omega)]

/-- `MemRead` answers a string exactly when the buffer holds it. -/
theorem readRange_eq_some {m : Memory} {a n : Nat} {p : List Byte} :
    m.readRange a n = some p ↔ p.length = n ∧ m.holds a p := by
  induction n generalizing a p with
  | zero =>
    simp only [Memory.readRange, Option.some.injEq, List.length_eq_zero_iff]
    constructor
    · rintro rfl; exact ⟨rfl, fun i hi => by simp at hi⟩
    · exact fun h => h.1.symm
  | succ n ih =>
    simp only [Memory.readRange]
    constructor
    · intro h
      split at h
      · rename_i v vs hv hvs
        obtain ⟨hl, hh⟩ := ih.1 hvs
        cases h
        refine ⟨by simp [hl], fun i hi => ?_⟩
        cases i with
        | zero => simpa using hv
        | succ i =>
          have := hh i (by simpa using hi)
          rw [show a + (i + 1) = a + 1 + i by omega]
          simpa using this
      · cases h
    · rintro ⟨hl, hh⟩
      cases p with
      | nil => simp at hl
      | cons v vs =>
        have h0 : m.read a = some v := by simpa using hh 0 (by simp)
        have hr : m.readRange (a + 1) n = some vs := ih.2 ⟨by simpa using hl, fun i hi => by
          have := hh (i + 1) (by simpa using hi)
          rw [show a + (i + 1) = a + 1 + i by omega] at this
          simpa using this⟩
        simp [h0, hr]

/-- `MemRead` answers nothing exactly when a byte of the range holds no value. -/
theorem readRange_eq_none {m : Memory} {a n : Nat} : m.readRange a n = none ↔ ∃ i < n, m.read (a + i) = none := by
  induction n generalizing a with
  | zero => simp [Memory.readRange]
  | succ n ih =>
    simp only [Memory.readRange]
    constructor
    · intro h
      split at h
      · cases h
      · rename_i hne
        cases h0 : m.read a with
        | none => exact ⟨0, by omega, h0⟩
        | some v =>
          cases h1 : m.readRange (a + 1) n with
          | none =>
            obtain ⟨i, hi, hr⟩ := ih.1 h1
            exact ⟨i + 1, by omega, by rwa [show a + (i + 1) = a + 1 + i by omega]⟩
          | some vs => exact absurd h1 (hne v vs h0)
    · rintro ⟨i, hi, hr⟩
      cases i with
      | zero => simp [show m.read a = none from hr]
      | succ i =>
        have : m.readRange (a + 1) n = none := ih.2 ⟨i, by omega, by rwa [show a + 1 + i = a + (i + 1) by omega]⟩
        split
        · simp_all
        · rfl

/-- A range whose bytes all hold a value holds a string. -/
theorem holds_of_written {m : Memory} {a n : Nat} (h : ∀ i < n, m.read (a + i) ≠ none) :
    ∃ p : List Byte, p.length = n ∧ m.holds a p := by
  cases hr : m.readRange a n with
  | none =>
    obtain ⟨i, hi, hn⟩ := readRange_eq_none.1 hr
    exact absurd hn (h i hi)
  | some p => exact ⟨p, readRange_eq_some.1 hr⟩

/-- Where two buffers agree they hold the same string. -/
theorem holds_unique {m m' : Memory} {n : Nat} {p q : List Byte} (h : ∀ i < n, m.read i = m'.read i)
    (hp : p.length = n) (hq : q.length = n) (h1 : m.holds 0 p) (h2 : m'.holds 0 q) : p = q := by
  apply List.ext_getElem?
  intro i
  by_cases hi : i < n
  · have a := h1 i (by omega)
    have b := h2 i (by omega)
    rw [Nat.zero_add] at a b
    rw [← a, ← b, h i hi]
  · rw [List.getElem?_eq_none (by omega), List.getElem?_eq_none (by omega)]

theorem holds_append {m : Memory} {a : Nat} {p q : List Byte} :
    m.holds a (p ++ q) ↔ m.holds a p ∧ m.holds (a + p.length) q := by
  constructor
  · refine fun h => ⟨fun i hi => ?_, fun i hi => ?_⟩
    · rw [h i (by simp; omega), List.getElem?_append_left hi]
    · have := h (p.length + i) (by simp; omega)
      rw [List.getElem?_append_right (by omega), Nat.add_sub_cancel_left] at this
      rwa [Nat.add_assoc]
  · rintro ⟨hp, hq⟩ i hi
    by_cases h : i < p.length
    · rw [hp i h, List.getElem?_append_left h]
    · rw [List.getElem?_append_right (by omega)]
      have := hq (i - p.length) (by simp at hi; omega)
      rwa [show a + p.length + (i - p.length) = a + i by omega] at this

/-- Two buffers in canonical form that read alike everywhere are equal data. -/
theorem wf_ext {m m' : Memory} (h : m.wf) (h' : m'.wf) (hr : ∀ a, m.read a = m'.read a) : m = m' := by
  have low : ∀ (b : Nat) (k : Memory), (∀ x ∈ k, b < x.1) → ∀ a, a ≤ b → k.read a = none := by
    intro b k hk a ha
    induction k with
    | nil => rfl
    | cons y k ih =>
      obtain ⟨c, w⟩ := y
      have : b < c := hk _ List.mem_cons_self
      rw [read_cons, if_neg (by omega)]
      exact ih fun x hx => hk x (List.mem_cons_of_mem _ hx)
  induction m generalizing m' with
  | nil =>
    cases m' with
    | nil => rfl
    | cons y k => simpa [Memory.read] using hr y.1
  | cons x m ih =>
    obtain ⟨b, v⟩ := x
    obtain ⟨hb, hm⟩ := List.pairwise_cons.1 h
    cases m' with
    | nil => simpa [Memory.read] using hr b
    | cons y k =>
      obtain ⟨c, w⟩ := y
      obtain ⟨hc, hk⟩ := List.pairwise_cons.1 h'
      have hbc : b = c := by
        rcases Nat.lt_trichotomy b c with hlt | heq | hgt
        · have := hr b
          rw [read_cons, if_pos rfl, read_cons, if_neg (by omega), low c k hc b (by omega)] at this
          cases this
        · exact heq
        · have := hr c
          rw [read_cons, if_neg (by omega), read_cons, if_pos rfl, low b m hb c (by omega)] at this
          cases this
      subst hbc
      have hv : v = w := by simpa [Memory.read] using hr b
      subst hv
      congr 1
      refine ih hm hk fun a => ?_
      by_cases ha : a = b
      · subst ha; rw [low a m hb a (Nat.le_refl a), low a k hc a (Nat.le_refl a)]
      · simpa [Memory.read, ha] using hr a

end Sys2Proof.Machine
end

