-- ==== Sys2Proof/Laws/Operands.lean ====
section
/-! SUPPORT. What the units of the frame and the calls of the primitives compute. -/

namespace Sys2Proof.Machine

theorem uplinkHeader_eq (k : SessionConfig) (c : Half) :
    uplinkHeader k c
      = [k.mhdrTag, k.devAddr.da3, k.devAddr.da2, k.devAddr.da1, k.devAddr.da0, 0x00#8, lowByte c, highByte c, 0x01#8] :=
  rfl

@[simp] theorem uplinkHeader_length (k : SessionConfig) (c : Half) : (uplinkHeader k c).length = 9 := rfl

/-- Rule R93 in one stroke: the high byte above the low one. -/
theorem counterOf_eq_append (lo hi : Byte) : counterOf lo hi = hi ++ lo := by
  apply BitVec.eq_of_toNat_eq
  have hl := lo.isLt
  have hh := hi.isLt
  simp only [counterOf, BitVec.toNat_or, BitVec.toNat_shiftLeft, BitVec.truncate_eq_setWidth, BitVec.toNat_setWidth,
    BitVec.toNat_append]
  rw [Nat.mod_eq_of_lt (by omega : lo.toNat < 2 ^ 16), Nat.mod_eq_of_lt (by omega : hi.toNat < 2 ^ 16),
    Nat.mod_eq_of_lt (by rw [Nat.shiftLeft_eq]; omega), Nat.or_comm]

/-- Serialising a counter and extracting it give it back (rules R70, R81, R93). -/
theorem counterOf_le16 (c : Half) : counterOf (lowByte c) (highByte c) = c := by
  rw [counterOf_eq_append, lowByte, highByte]
  apply BitVec.eq_of_toNat_eq
  simp only [BitVec.toNat_append, BitVec.extractLsb'_toNat, Nat.shiftRight_eq_div_pow, Nat.shiftLeft_eq]
  have h := c.isLt
  rw [← Nat.shiftLeft_eq, ← Nat.shiftLeft_add_eq_or_of_lt (by omega), Nat.shiftLeft_eq]
  omega

/-- Rule R69: bits [3:0] of the frame-control byte, the others ignored. -/
theorem optionsLength_eq (v : Byte) : optionsLength v = v.toNat % 16 := by
  rw [optionsLength, optionsMask, BitVec.toNat_and]
  exact Nat.and_two_pow_sub_one_eq_mod v.toNat 4

/-- Rule R94. -/
theorem payloadOffset_eq (v : Byte) : payloadOffset v = 9 + v.toNat % 16 := by
  rw [payloadOffset, optionsLength_eq]; rfl

theorem uplinkLength_eq (n : Nat) : uplinkLength n = 13 + n := by
  simp only [uplinkLength, headerBytes, micFieldBytes]; omega

theorem uplinkLength_toNat {n : Nat} (h : n ≤ 242) : (BitVec.ofNat 8 (uplinkLength n)).toNat = 13 + n := by
  rw [uplinkLength_eq, BitVec.toNat_ofNat, Nat.mod_eq_of_lt (by omega)]

theorem pbufCap_add (k : SessionConfig) : k.pbufCap + 13 = k.encBufCap.val := by
  have := k.encBufCap.property
  simp only [SessionConfig.pbufCap]; omega

/-! ## The primitives -/

@[simp] theorem cipherBytes_length (P : Primitives) (s : List Byte) (c : Half) (d : Direction) (K : Key) :
    (cipherBytes P s c d K).length = s.length := by simp [cipherBytes]

theorem cipherBytes_toList (P : Primitives) {n : Nat} (v : Vector Byte n) (c : Half) (d : Direction) (K : Key) :
    cipherBytes P v.toList c d K = (P.cipher n v c d K).toList := by
  obtain ⟨⟨l⟩, rfl⟩ := v; rfl

@[simp] theorem tagBytes_length (t : MicTag) : (tagBytes t).length = 4 := rfl

theorem tagBytes_inj {t t' : MicTag} (h : tagBytes t = tagBytes t') : t = t' := by
  cases t; cases t'; simpa [tagBytes] using h

@[simp] theorem micBytes_length (P : Primitives) (s : List Byte) (c : Half) (d : Direction) (K : Key) :
    (micBytes P s c d K).length = 4 := rfl

theorem micBytes_toList (P : Primitives) {n : Nat} (v : Vector Byte n) (c : Half) (d : Direction) (K : Key) :
    micBytes P v.toList c d K = tagBytes (P.mic n v c d K) := by
  obtain ⟨⟨l⟩, rfl⟩ := v; rfl

/-- Rule R33 with the assumption of rule R35: encrypting twice gives the string back. -/
theorem cipherBytes_involutive {P : Primitives} (hP : CipherInvolutive P) (s : List Byte) (c : Half) (d : Direction)
    (K : Key) : cipherBytes P (cipherBytes P s c d K) c d K = s := by
  let v : Vector Byte s.length := ⟨s.toArray, List.size_toArray⟩
  have hv : v.toList = s := rfl
  rw [← hv, cipherBytes_toList, cipherBytes_toList, hP]

/-! ## Slices of a frame -/

theorem slice_left {p q : List Byte} {n : Nat} (h : p.length = n) : slice (p ++ q) 0 n = p := by
  subst h; simp [slice]

theorem slice_right {p q : List Byte} {n k : Nat} (h : p.length = n) (hk : q.length = k) :
    slice (p ++ q) n (n + k) = q := by
  subst h hk; simp [slice, List.take_of_length_le]

theorem slice_middle {p q r : List Byte} {n k : Nat} (h : p.length = n) (hk : q.length = k) :
    slice (p ++ q ++ r) n (n + k) = q := by
  subst h hk
  rw [slice, List.take_append_of_le_length (by simp), List.take_of_length_le (by simp), List.drop_left]

theorem frameByte_of_holds {m : Memory} {f : List Byte} {i : Nat} {v : Byte} (h : m.holds 0 f) (hi : i < f.length)
    (hv : m.read i = some v) : frameByte f i = v := by
  have := h i hi
  rw [Nat.zero_add, hv] at this
  rw [frameByte, List.getD_eq_getElem?_getD, ← this]; rfl

/-- The counter of a frame is the two bytes at indices 6 and 7, the second above the first (rule R93). -/
theorem frameCounter_eq (f : List Byte) : frameCounter f = frameByte f 7 ++ frameByte f 6 := by
  rw [frameCounter, counterOf_eq_append]; rfl

end Sys2Proof.Machine
end

