-- ==== Sys2Proof/Laws/State.lean ====
section
/-! SUPPORT. One lemma per field for each named update of the state, and for each field of the reset state. -/

namespace Sys2Proof.Machine

section RaiseFault
variable (cause : FaultCause) (s : State)

@[simp] theorem raiseFault_upcnt : (raiseFault cause s).upcnt = s.upcnt := rfl
@[simp] theorem raiseFault_resLen : (raiseFault cause s).resLen = s.resLen := rfl
@[simp] theorem raiseFault_resOff : (raiseFault cause s).resOff = s.resOff := rfl
@[simp] theorem raiseFault_decStatus : (raiseFault cause s).decStatus = s.decStatus := rfl
@[simp] theorem raiseFault_faultCause : (raiseFault cause s).faultCause = cause.code := rfl
@[simp] theorem raiseFault_pbuf : (raiseFault cause s).pbuf = s.pbuf := rfl
@[simp] theorem raiseFault_txbuf : (raiseFault cause s).txbuf = s.txbuf := rfl
@[simp] theorem raiseFault_rxbuf : (raiseFault cause s).rxbuf = s.rxbuf := rfl
@[simp] theorem raiseFault_cfg : (raiseFault cause s).cfg = s.cfg := rfl
@[simp] theorem raiseFault_script : (raiseFault cause s).script = s.script := rfl
@[simp] theorem raiseFault_hostData : (raiseFault cause s).hostData = s.hostData := rfl
end RaiseFault

section ResetBlock
variable (k : Option SessionConfig) (s : State)

@[simp] theorem resetBlock_upcnt : (resetBlock k s).upcnt = 0 := rfl
@[simp] theorem resetBlock_resLen : (resetBlock k s).resLen = none := rfl
@[simp] theorem resetBlock_resOff : (resetBlock k s).resOff = none := rfl
@[simp] theorem resetBlock_decStatus : (resetBlock k s).decStatus = 0#8 := rfl
@[simp] theorem resetBlock_faultCause : (resetBlock k s).faultCause = 0#8 := rfl
@[simp] theorem resetBlock_pbuf : (resetBlock k s).pbuf = [] := rfl
@[simp] theorem resetBlock_txbuf : (resetBlock k s).txbuf = [] := rfl
@[simp] theorem resetBlock_rxbuf : (resetBlock k s).rxbuf = [] := rfl
@[simp] theorem resetBlock_cfg : (resetBlock k s).cfg = k.getD s.cfg := rfl
@[simp] theorem resetBlock_script : (resetBlock k s).script = s.script := rfl
@[simp] theorem resetBlock_hostData : (resetBlock k s).hostData = s.hostData := rfl
end ResetBlock

section CompleteEncode
variable (P : Primitives) (n : Nat) (p : List Byte) (s : State)

@[simp] theorem completeEncode_upcnt : (completeEncode P n p s).upcnt = nextCounter s.upcnt := rfl
@[simp] theorem completeEncode_resLen :
    (completeEncode P n p s).resLen = some (BitVec.ofNat 8 (uplinkLength n)) := rfl
@[simp] theorem completeEncode_resOff : (completeEncode P n p s).resOff = s.resOff := rfl
@[simp] theorem completeEncode_decStatus : (completeEncode P n p s).decStatus = s.decStatus := rfl
@[simp] theorem completeEncode_faultCause : (completeEncode P n p s).faultCause = s.faultCause := rfl
@[simp] theorem completeEncode_pbuf :
    (completeEncode P n p s).pbuf = s.pbuf.writeRange 0 (uplinkCiphertext P s.cfg s.upcnt p) := rfl
@[simp] theorem completeEncode_txbuf :
    (completeEncode P n p s).txbuf
      = s.txbuf.writeRange 0 (uplinkFrame P s.cfg s.upcnt (uplinkCiphertext P s.cfg s.upcnt p)) := rfl
@[simp] theorem completeEncode_rxbuf : (completeEncode P n p s).rxbuf = s.rxbuf := rfl
@[simp] theorem completeEncode_cfg : (completeEncode P n p s).cfg = s.cfg := rfl
@[simp] theorem completeEncode_script : (completeEncode P n p s).script = s.script := rfl
@[simp] theorem completeEncode_hostData : (completeEncode P n p s).hostData = s.hostData := rfl
end CompleteEncode

section ReportNoPayload
variable (st : DecStatus) (s : State)

@[simp] theorem reportNoPayload_upcnt : (reportNoPayload st s).upcnt = s.upcnt := rfl
@[simp] theorem reportNoPayload_resLen : (reportNoPayload st s).resLen = s.resLen := rfl
@[simp] theorem reportNoPayload_resOff : (reportNoPayload st s).resOff = some noPayloadResult := rfl
@[simp] theorem reportNoPayload_decStatus : (reportNoPayload st s).decStatus = st.code := rfl
@[simp] theorem reportNoPayload_faultCause : (reportNoPayload st s).faultCause = s.faultCause := rfl
@[simp] theorem reportNoPayload_pbuf : (reportNoPayload st s).pbuf = s.pbuf := rfl
@[simp] theorem reportNoPayload_txbuf : (reportNoPayload st s).txbuf = s.txbuf := rfl
@[simp] theorem reportNoPayload_rxbuf : (reportNoPayload st s).rxbuf = s.rxbuf := rfl
@[simp] theorem reportNoPayload_cfg : (reportNoPayload st s).cfg = s.cfg := rfl
@[simp] theorem reportNoPayload_script : (reportNoPayload st s).script = s.script := rfl
@[simp] theorem reportNoPayload_hostData : (reportNoPayload st s).hostData = s.hostData := rfl
end ReportNoPayload

section ReportPayload
variable (P : Primitives) (f : List Byte) (off pe : Nat) (s : State)

@[simp] theorem reportPayload_upcnt : (reportPayload P f off pe s).upcnt = s.upcnt := rfl
@[simp] theorem reportPayload_resLen : (reportPayload P f off pe s).resLen = s.resLen := rfl
@[simp] theorem reportPayload_resOff : (reportPayload P f off pe s).resOff = some (offsetResult off) := rfl
@[simp] theorem reportPayload_decStatus : (reportPayload P f off pe s).decStatus = DecStatus.ok.code := rfl
@[simp] theorem reportPayload_faultCause : (reportPayload P f off pe s).faultCause = s.faultCause := rfl
@[simp] theorem reportPayload_pbuf : (reportPayload P f off pe s).pbuf = s.pbuf := rfl
@[simp] theorem reportPayload_txbuf : (reportPayload P f off pe s).txbuf = s.txbuf := rfl
@[simp] theorem reportPayload_rxbuf :
    (reportPayload P f off pe s).rxbuf
      = s.rxbuf.writeRange off
          (cipherBytes P (slice f off pe) (frameCounter f) s.cfg.decodeDirection s.cfg.appSKey) := rfl
@[simp] theorem reportPayload_cfg : (reportPayload P f off pe s).cfg = s.cfg := rfl
@[simp] theorem reportPayload_script : (reportPayload P f off pe s).script = s.script := rfl
@[simp] theorem reportPayload_hostData : (reportPayload P f off pe s).hostData = s.hostData := rfl
end ReportPayload

section SetBuf
variable (s : State) (b b' : Buffer) (m : Memory)

@[simp] theorem setBuf_upcnt : (s.setBuf b m).upcnt = s.upcnt := by cases b <;> rfl
@[simp] theorem setBuf_resLen : (s.setBuf b m).resLen = s.resLen := by cases b <;> rfl
@[simp] theorem setBuf_resOff : (s.setBuf b m).resOff = s.resOff := by cases b <;> rfl
@[simp] theorem setBuf_decStatus : (s.setBuf b m).decStatus = s.decStatus := by cases b <;> rfl
@[simp] theorem setBuf_faultCause : (s.setBuf b m).faultCause = s.faultCause := by cases b <;> rfl
@[simp] theorem setBuf_cfg : (s.setBuf b m).cfg = s.cfg := by cases b <;> rfl
@[simp] theorem setBuf_script : (s.setBuf b m).script = s.script := by cases b <;> rfl
@[simp] theorem setBuf_hostData : (s.setBuf b m).hostData = s.hostData := by cases b <;> rfl
@[simp] theorem setBuf_buf_same : (s.setBuf b m).buf b = m := by cases b <;> rfl

/-- Rule R43: the buffers are disjoint. -/
theorem setBuf_buf_other (h : b' ≠ b) : (s.setBuf b m).buf b' = s.buf b' := by
  cases b <;> cases b' <;> first | rfl | exact absurd rfl h
end SetBuf

section HostTakes
variable (v : Option HostDatum) (s : State)

@[simp] theorem hostTakes_upcnt : (hostTakes v s).upcnt = s.upcnt := rfl
@[simp] theorem hostTakes_resLen : (hostTakes v s).resLen = s.resLen := rfl
@[simp] theorem hostTakes_resOff : (hostTakes v s).resOff = s.resOff := rfl
@[simp] theorem hostTakes_decStatus : (hostTakes v s).decStatus = s.decStatus := rfl
@[simp] theorem hostTakes_faultCause : (hostTakes v s).faultCause = s.faultCause := rfl
@[simp] theorem hostTakes_pbuf : (hostTakes v s).pbuf = s.pbuf := rfl
@[simp] theorem hostTakes_txbuf : (hostTakes v s).txbuf = s.txbuf := rfl
@[simp] theorem hostTakes_rxbuf : (hostTakes v s).rxbuf = s.rxbuf := rfl
@[simp] theorem hostTakes_cfg : (hostTakes v s).cfg = s.cfg := rfl
@[simp] theorem hostTakes_script : (hostTakes v s).script = s.script := rfl
@[simp] theorem hostTakes_hostData : (hostTakes v s).hostData = v := rfl
end HostTakes

/-- The test of the halted block is the test of rule R113. -/
@[simp] theorem halted_iff (s : State) : s.halted = true ↔ s.faultCause ≠ 0#8 := by simp [State.halted]

end Sys2Proof.Machine
end

