-- ==== Sys2Proof/Laws/Exec.lean ====
section
/-! SUPPORT. All that a command can do, said once for each of the two meanings. -/

namespace Sys2Proof.Machine

/-- Rule R113: a halted block ignores the command. -/
theorem whenRunning_halted {s : State} (h : s.faultCause ≠ 0#8) (k : Host.Outcome State Fault Refusal) :
    whenRunning s k = .next s := by simp [whenRunning, h]

/-- A block that has not faulted runs the command. -/
theorem whenRunning_running {s : State} (h : s.faultCause = 0#8) (k : Host.Outcome State Fault Refusal) :
    whenRunning s k = k := by simp [whenRunning, h]

/-! ## ENCODE -/

theorem encodeWith_halted (P : Primitives) (n : Nat) {s : State} (h : s.faultCause ≠ 0#8) : encodeWith P n s = .next s :=
  whenRunning_halted h _

theorem encodeWith_overflow (P : Primitives) {n : Nat} {s : State} (h : s.faultCause = 0#8) (hn : s.cfg.pbufCap < n) :
    encodeWith P n s = .next (raiseFault .encOverflow s) := by
  rw [encodeWith, whenRunning_running h, if_pos hn]

theorem encodeWith_unwritten (P : Primitives) {n : Nat} {s : State} (h : s.faultCause = 0#8) (hn : n ≤ s.cfg.pbufCap)
    (hr : ∃ i < n, s.pbuf.read i = none) : encodeWith P n s = .next (raiseFault .unwrittenRead s) := by
  have hnone : s.pbuf.readRange 0 n = none := readRange_eq_none.2 (by simpa using hr)
  rw [encodeWith, whenRunning_running h, if_neg (Nat.not_lt.2 hn), hnone]

theorem encodeWith_completes (P : Primitives) {n : Nat} {s : State} {p : List Byte} (h : s.faultCause = 0#8)
    (hn : n ≤ s.cfg.pbufCap) (hl : p.length = n) (hp : s.pbuf.holds 0 p) :
    encodeWith P n s = .next (completeEncode P n p s) := by
  rw [encodeWith, whenRunning_running h, if_neg (Nat.not_lt.2 hn), readRange_eq_some.2 ⟨hl, hp⟩]

/-- All an ENCODE can do. -/
theorem encodeWith_cases (P : Primitives) (n : Nat) (s : State) :
    (s.faultCause ≠ 0#8 ∧ encodeWith P n s = .next s)
      ∨ (s.faultCause = 0#8 ∧ s.cfg.pbufCap < n ∧ encodeWith P n s = .next (raiseFault .encOverflow s))
      ∨ (s.faultCause = 0#8 ∧ n ≤ s.cfg.pbufCap ∧ (∃ i < n, s.pbuf.read i = none)
          ∧ encodeWith P n s = .next (raiseFault .unwrittenRead s))
      ∨ (∃ p, s.faultCause = 0#8 ∧ n ≤ s.cfg.pbufCap ∧ p.length = n ∧ s.pbuf.holds 0 p
          ∧ encodeWith P n s = .next (completeEncode P n p s)) := by
  by_cases h : s.faultCause = 0#8
  · rcases Nat.lt_or_ge s.cfg.pbufCap n with hn | hn
    · exact .inr (.inl ⟨h, hn, encodeWith_overflow P h hn⟩)
    · cases hr : s.pbuf.readRange 0 n with
      | none =>
        have hx : ∃ i < n, s.pbuf.read i = none := by simpa using readRange_eq_none.1 hr
        exact .inr (.inr (.inl ⟨h, hn, hx, encodeWith_unwritten P h hn hx⟩))
      | some p =>
        obtain ⟨hl, hp⟩ := readRange_eq_some.1 hr
        exact .inr (.inr (.inr ⟨p, h, hn, hl, hp, encodeWith_completes P h hn hl hp⟩))
  · exact .inl ⟨h, encodeWith_halted P n h⟩

@[simp] theorem uplinkCiphertext_length (P : Primitives) (k : SessionConfig) (c : Half) (p : List Byte) :
    (uplinkCiphertext P k c p).length = p.length := cipherBytes_length ..

@[simp] theorem uplinkFrame_length (P : Primitives) (k : SessionConfig) (c : Half) (ct : List Byte) :
    (uplinkFrame P k c ct).length = 13 + ct.length := by simp [uplinkFrame, appendMic]; omega

/-! ## DECODE -/

theorem decodeWith_halted (P : Primitives) (len : Nat) {s : State} (h : s.faultCause ≠ 0#8) :
    decodeWith P len s = .next s := whenRunning_halted h _

theorem decodeWith_tooShort (P : Primitives) {len : Nat} {s : State} (h : s.faultCause = 0#8) (hl : len < 8) :
    decodeWith P len s = .next (raiseFault .decTooShort s) := by
  rw [decodeWith, whenRunning_running h, if_pos (by exact hl)]

theorem decodeWith_tooLong (P : Primitives) {len : Nat} {s : State} (h : s.faultCause = 0#8)
    (hl : s.cfg.decBufCap.val < len) : decodeWith P len s = .next (raiseFault .decTooLong s) := by
  have := s.cfg.decBufCap.property
  rw [decodeWith, whenRunning_running h, if_neg (by simp only [minDownlinkLength]; omega), if_pos hl]

theorem decodeWith_unwritten (P : Primitives) {len : Nat} {s : State} (h : s.faultCause = 0#8) (h8 : 8 ≤ len)
    (hl : len ≤ s.cfg.decBufCap.val) (hr : ∃ i < len, s.rxbuf.read i = none) :
    decodeWith P len s = .next (raiseFault .unwrittenRead s) := by
  have hnone : s.rxbuf.readRange 0 len = none := readRange_eq_none.2 (by simpa using hr)
  rw [decodeWith, whenRunning_running h, if_neg (by simp only [minDownlinkLength]; omega),
    if_neg (Nat.not_lt.2 hl), hnone]

theorem decodeWith_completes (P : Primitives) {len : Nat} {s : State} {f : List Byte} (h : s.faultCause = 0#8)
    (h8 : 8 ≤ len) (hl : len ≤ s.cfg.decBufCap.val) (hf : f.length = len) (hh : s.rxbuf.holds 0 f) :
    decodeWith P len s = .next (completeDecode P len f s) := by
  rw [decodeWith, whenRunning_running h, if_neg (by simp only [minDownlinkLength]; omega),
    if_neg (Nat.not_lt.2 hl), readRange_eq_some.2 ⟨hf, hh⟩]

/-- All a DECODE can do. -/
theorem decodeWith_cases (P : Primitives) (len : Nat) (s : State) :
    (s.faultCause ≠ 0#8 ∧ decodeWith P len s = .next s)
      ∨ (s.faultCause = 0#8 ∧ len < 8 ∧ decodeWith P len s = .next (raiseFault .decTooShort s))
      ∨ (s.faultCause = 0#8 ∧ s.cfg.decBufCap.val < len ∧ decodeWith P len s = .next (raiseFault .decTooLong s))
      ∨ (s.faultCause = 0#8 ∧ 8 ≤ len ∧ len ≤ s.cfg.decBufCap.val ∧ (∃ i < len, s.rxbuf.read i = none)
          ∧ decodeWith P len s = .next (raiseFault .unwrittenRead s))
      ∨ (∃ f, s.faultCause = 0#8 ∧ 8 ≤ len ∧ len ≤ s.cfg.decBufCap.val ∧ f.length = len ∧ s.rxbuf.holds 0 f
          ∧ decodeWith P len s = .next (completeDecode P len f s)) := by
  by_cases h : s.faultCause = 0#8
  · rcases Nat.lt_or_ge len 8 with h8 | h8
    · exact .inr (.inl ⟨h, h8, decodeWith_tooShort P h h8⟩)
    · rcases Nat.lt_or_ge s.cfg.decBufCap.val len with hl | hl
      · exact .inr (.inr (.inl ⟨h, hl, decodeWith_tooLong P h hl⟩))
      · cases hr : s.rxbuf.readRange 0 len with
        | none =>
          have hx : ∃ i < len, s.rxbuf.read i = none := by simpa using readRange_eq_none.1 hr
          exact .inr (.inr (.inr (.inl ⟨h, h8, hl, hx, decodeWith_unwritten P h h8 hl hx⟩)))
        | some f =>
          obtain ⟨hf, hh⟩ := readRange_eq_some.1 hr
          exact .inr (.inr (.inr (.inr ⟨f, h, h8, hl, hf, hh, decodeWith_completes P h h8 hl hf hh⟩)))
  · exact .inl ⟨h, decodeWith_halted P len h⟩

/-- All a completed DECODE can report. -/
theorem completeDecode_cases (P : Primitives) (len : Nat) (f : List Byte) (s : State) :
    (micMatches P s.cfg f (len - 4) = false ∧ completeDecode P len f s = reportNoPayload .micMismatch s)
      ∨ (micMatches P s.cfg f (len - 4) = true ∧ len - 4 ≤ payloadOffset (frameByte f 5)
          ∧ completeDecode P len f s = reportNoPayload .emptyPayload s)
      ∨ (micMatches P s.cfg f (len - 4) = true ∧ payloadOffset (frameByte f 5) < len - 4
          ∧ completeDecode P len f s = reportPayload P f (payloadOffset (frameByte f 5)) (len - 4) s) := by
  cases hm : micMatches P s.cfg f (len - 4) with
  | false => exact .inl ⟨rfl, by simp [completeDecode, payloadEnd, micFieldBytes, hm]⟩
  | true =>
    rcases Nat.lt_or_ge (payloadOffset (frameByte f 5)) (len - 4) with h | h
    · refine .inr (.inr ⟨rfl, h, ?_⟩)
      have : ¬ payloadLength (len - 4) (payloadOffset (frameByte f 5)) ≤ 0 := by simp only [payloadLength]; omega
      simp [completeDecode, payloadEnd, micFieldBytes, fctrlIndex, hm, this]
    · refine .inr (.inl ⟨rfl, h, ?_⟩)
      have : payloadLength (len - 4) (payloadOffset (frameByte f 5)) ≤ 0 := by simp only [payloadLength]; omega
      simp [completeDecode, payloadEnd, micFieldBytes, fctrlIndex, hm, this]

/-- The MIC of a frame that is the string `pre` followed by the MIC bytes `m` (rule R99). -/
theorem micMatches_append (P : Primitives) (k : SessionConfig) {n : Nat} (pre : Vector Byte n) (m : MicTag) :
    micMatches P k (pre.toList ++ tagBytes m) n
      = decide (P.mic n pre (frameCounter (pre.toList ++ tagBytes m)) k.decodeDirection k.nwkSKey = m) := by
  rw [micMatches, slice_left (by simp), slice_right (by simp) (by rfl), micBytes_toList]
  exact decide_eq_decide.2 ⟨fun h => tagBytes_inj h, fun h => by rw [h]⟩

/-! ## Both -/

/-- A halted block ignores every command (rule R113). -/
theorem exec_halted {s : State} (i : Instr) (h : s.faultCause ≠ 0#8) : exec i s = .next s := by
  cases i with
  | encode n => exact encodeWith_halted _ n h
  | decode len => exact decodeWith_halted _ len h

/-- A completed DECODE looks at no field of the host agent, and writes none. -/
theorem completeDecode_agent (P : Primitives) (len : Nat) (f : List Byte) (s : State) (l : List HostAction)
    (d : Option HostDatum) :
    completeDecode P len f { s with script := l, hostData := d }
      = { completeDecode P len f s with script := l, hostData := d } := by
  rcases completeDecode_cases P len f s with ⟨hm, e⟩ | ⟨hm, hl, e⟩ | ⟨hm, hl, e⟩ <;>
    rcases completeDecode_cases P len f { s with script := l, hostData := d } with
      ⟨hm', e'⟩ | ⟨hm', hl', e'⟩ | ⟨hm', hl', e'⟩ <;>
    first
      | rw [e, e']; rfl
      | exact absurd (hm.symm.trans hm') (by decide)
      | omega

/-- What no completed DECODE writes (rule R107). -/
theorem completeDecode_frame (P : Primitives) (len : Nat) (f : List Byte) (s : State) :
    (completeDecode P len f s).upcnt = s.upcnt ∧ (completeDecode P len f s).resLen = s.resLen
      ∧ (completeDecode P len f s).faultCause = s.faultCause ∧ (completeDecode P len f s).pbuf = s.pbuf
      ∧ (completeDecode P len f s).txbuf = s.txbuf ∧ (completeDecode P len f s).cfg = s.cfg
      ∧ (completeDecode P len f s).script = s.script ∧ (completeDecode P len f s).hostData = s.hostData := by
  rcases completeDecode_cases P len f s with ⟨-, h⟩ | ⟨-, -, h⟩ | ⟨-, -, h⟩ <;> rw [h] <;>
    exact ⟨rfl, rfl, rfl, rfl, rfl, rfl, rfl, rfl⟩

/-- A payload offset fits the `i8` of `RES_OFF` (rule R24). -/
theorem offsetResult_toNat (v : Byte) : (offsetResult (payloadOffset v)).toNat = payloadOffset v := by
  rw [payloadOffset_eq, offsetResult, BitVec.toNat_ofNat]; omega

/-- The codes of the fault causes are 1 to 5 (rule R109). -/
theorem code_range (c : FaultCause) : 1 ≤ c.code.toNat ∧ c.code.toNat ≤ 5 := by cases c <;> decide

/-- Every command answers a next state: its faults are states too (rule R112). -/
theorem exec_next (i : Instr) (s : State) : ∃ t, exec i s = .next t := by
  cases i with
  | encode n =>
    rcases encodeWith_cases (Config.primitives s.cfg) n s with h | h | h | ⟨p, h⟩
    · exact ⟨_, h.2⟩
    · exact ⟨_, h.2.2⟩
    · exact ⟨_, h.2.2.2⟩
    · exact ⟨_, h.2.2.2.2⟩
  | decode len =>
    rcases decodeWith_cases (Config.primitives s.cfg) len s with h | h | h | h | ⟨f, h⟩
    · exact ⟨_, h.2⟩
    · exact ⟨_, h.2.2⟩
    · exact ⟨_, h.2.2⟩
    · exact ⟨_, h.2.2.2.2⟩
    · exact ⟨_, h.2.2.2.2.2⟩

end Sys2Proof.Machine
end

