-- ==== Sys2Proof/Laws/PerInstr.lean ====
section
/-! SUPPORT. A statement about every command, one lemma per constructor: the fields of its word. -/

namespace Sys2Proof

/-- The `OP` field of a command's word (rule R61). -/
def Instr.op : Instr → Byte
  | .encode _ => opEncode
  | .decode _ => opDecode

/-- The operand of a command. -/
def Instr.operand : Instr → Nat
  | .encode n => n
  | .decode len => len

/-- The fields of a word made of an opcode below 256 and an operand from 0 to 255 (rules R60, R77). -/
theorem commandWord_fields (op : Byte) {n : Nat} (h : n ≤ 255) :
    opField (commandWord op n) = op ∧ lenField (commandWord op n) = n := by
  have ho := op.isLt
  have hw : (commandWord op n).toNat = op.toNat * 256 + n := by
    simp only [commandWord, BitVec.toNat_or, BitVec.toNat_shiftLeft, BitVec.truncate_eq_setWidth,
      BitVec.toNat_setWidth, BitVec.toNat_ofNat]
    rw [Nat.mod_eq_of_lt (by omega : op.toNat < 2 ^ 16), Nat.mod_eq_of_lt (by rw [Nat.shiftLeft_eq]; omega),
      Nat.mod_eq_of_lt (by omega : n < 2 ^ 16), ← Nat.shiftLeft_add_eq_or_of_lt (by omega), Nat.shiftLeft_eq]
  constructor
  · apply BitVec.eq_of_toNat_eq
    rw [opField, BitVec.extractLsb'_toNat, hw, Nat.shiftRight_eq_div_pow]
    omega
  · rw [lenField, BitVec.extractLsb'_toNat, hw, Nat.shiftRight_zero]
    omega

/-- The fields of a word written as its two bytes (rule R60). -/
theorem append_fields (op len : Byte) : opField (op ++ len) = op ∧ lenField (op ++ len) = len.toNat := by
  have ho := op.isLt
  have hl := len.isLt
  have hw : (op ++ len).toNat = op.toNat * 256 + len.toNat := by
    rw [BitVec.toNat_append, ← Nat.shiftLeft_add_eq_or_of_lt hl, Nat.shiftLeft_eq]
  constructor
  · apply BitVec.eq_of_toNat_eq
    rw [opField, BitVec.extractLsb'_toNat, hw, Nat.shiftRight_eq_div_pow]
    omega
  · rw [lenField, BitVec.extractLsb'_toNat, hw, Nat.shiftRight_zero]
    omega

namespace Laws.WordFields

/-- The fields of the word of a well-formed command are its opcode and its operand. -/
def Statement (i : Instr) : Prop := i.wellFormed = true → opField (encode i) = i.op ∧ lenField (encode i) = i.operand

theorem encode (n : Nat) : Statement (.encode n) := fun h => commandWord_fields _ (by simpa [Instr.wellFormed] using h)

theorem decode (len : Nat) : Statement (.decode len) :=
  fun h => commandWord_fields _ (by simpa [Instr.wellFormed] using h)

end Laws.WordFields

end Sys2Proof
end

