-- ==== Sys2Proof/Laws/Step.lean ====
section
/-! SUPPORT. All that a step can do: the idle block, or one move of the host, by cases on the move. -/

namespace Sys2Proof.Machine

theorem step_idle {s : State} (h : s.script = []) : step s = .next s := by simp [step, hostTurn, h]

theorem step_cons {s : State} {a : HostAction} {rest : List HostAction} (h : s.script = a :: rest) :
    step s = hostMove a { s with script := rest } := by simp [step, hostTurn, h]

/-- A word placed by `withFetchWord` is the command the next step issues. -/
theorem step_withFetchWord (s : State) (nbits w : Nat) :
    step (s.withFetchWord nbits w) = issueCommand (tableWord nbits w) s := rfl

theorem issueCommand_ok {w : Half} {i : Instr} (h : decode w = .ok i) (s : State) : issueCommand w s = exec i s := by
  simp [issueCommand, h]

theorem issueCommand_error {w : Half} {e : Reject} (h : decode w = .error e) (s : State) :
    issueCommand w s = illegalCommand s := by simp [issueCommand, h]

/-- A write to index 0 issues a command; a write to any other index changes nothing (rule R28). -/
theorem writeIndex_cases (index : Fin 256) (w : Half) (s : State) :
    (index = 0 ∧ Reg.ofIndex index = some .cmd ∧ writeIndex index w s = issueCommand w s)
      ∨ (index ≠ 0 ∧ Reg.ofIndex index ≠ some .cmd ∧ writeIndex index w s = .next s) := by
  by_cases h : index = 0
  · subst h; exact .inl ⟨rfl, rfl, rfl⟩
  · have hr : Reg.ofIndex index ≠ some .cmd := by
      obtain ⟨i, hi⟩ := index
      rcases i with _ | _ | _ | _ | _ | _ | i <;> first | exact absurd rfl h | simp [Reg.ofIndex]
    refine .inr ⟨h, hr, ?_⟩
    cases hx : Reg.ofIndex index with
    | none => simp [writeIndex, hx]
    | some r => cases r <;> first | exact absurd hx hr | simp [writeIndex, hx]

/-- All a command word can do: the block is halted, the word is reserved, or it is a command and runs. -/
theorem issueCommand_cases (w : Half) (s : State) :
    (s.faultCause ≠ 0#8 ∧ issueCommand w s = .next s)
      ∨ (s.faultCause = 0#8 ∧ (∃ e, decode w = .error e) ∧ issueCommand w s = .next (raiseFault .illegalCommand s))
      ∨ (∃ i, s.faultCause = 0#8 ∧ decode w = .ok i ∧ issueCommand w s = exec i s) := by
  cases hd : decode w with
  | ok i =>
    by_cases h : s.faultCause = 0#8
    · exact .inr (.inr ⟨i, h, rfl, issueCommand_ok hd s⟩)
    · refine .inl ⟨h, ?_⟩
      rw [issueCommand_ok hd s, exec_halted i h]
  | error e =>
    rw [issueCommand_error hd, illegalCommand]
    by_cases h : s.faultCause = 0#8
    · exact .inr (.inl ⟨h, ⟨e, rfl⟩, whenRunning_running h _⟩)
    · exact .inl ⟨h, whenRunning_halted h _⟩

/-- Every move of the host answers a next state. -/
theorem hostMove_next (a : HostAction) (s : State) : ∃ t, hostMove a s = .next t := by
  cases a with
  | reset k => exact ⟨_, rfl⟩
  | writeReg index w =>
    rcases writeIndex_cases index w s with ⟨-, -, h⟩ | ⟨-, -, h⟩
    · rcases issueCommand_cases w s with ⟨-, h'⟩ | ⟨-, -, h'⟩ | ⟨i, -, -, h'⟩
      · exact ⟨_, h.trans h'⟩
      · exact ⟨_, h.trans h'⟩
      · obtain ⟨t, ht⟩ := exec_next i s
        exact ⟨t, h.trans (h'.trans ht)⟩
    · exact ⟨_, h⟩
  | readReg index => exact ⟨_, rfl⟩
  | writeByte b index v => exact ⟨_, rfl⟩
  | readByte b index => exact ⟨_, rfl⟩
  | copyByte src dst => exact ⟨_, rfl⟩

/-- What a host write to a buffer leaves alone: everything but that buffer (rule R42). -/
theorem hostPut_cases (b : Buffer) (index : Nat) (v : Option Byte) (s : State) :
    (index < SessionConfig.cap s.cfg b ∧ hostPut b index v s = s.setBuf b ((s.buf b).put index v))
      ∨ (SessionConfig.cap s.cfg b ≤ index ∧ hostPut b index v s = s) := by
  by_cases h : index < SessionConfig.cap s.cfg b
  · exact .inl ⟨h, by simp [hostPut, h]⟩
  · exact .inr ⟨Nat.not_lt.1 h, by simp [hostPut, h]⟩

/-- All that a host write to `CMD` can do to the state: nothing, a fault, a completed ENCODE or a completed DECODE. -/
theorem issueCommand_next {w : Half} {s t : State} (h : issueCommand w s = .next t) :
    t = s
      ∨ (s.faultCause = 0#8 ∧ ∃ c : FaultCause, t = raiseFault c s)
      ∨ (∃ n p, s.faultCause = 0#8 ∧ decode w = .ok (.encode n) ∧ n ≤ s.cfg.pbufCap ∧ p.length = n ∧ s.pbuf.holds 0 p
          ∧ t = completeEncode (Config.primitives s.cfg) n p s)
      ∨ (∃ len f, s.faultCause = 0#8 ∧ decode w = .ok (.decode len) ∧ 8 ≤ len ∧ len ≤ s.cfg.decBufCap.val
          ∧ f.length = len ∧ s.rxbuf.holds 0 f ∧ t = completeDecode (Config.primitives s.cfg) len f s) := by
  rcases issueCommand_cases w s with ⟨-, e⟩ | ⟨h0, -, e⟩ | ⟨i, h0, hd, e⟩
  · cases h.symm.trans e; exact .inl rfl
  · cases h.symm.trans e; exact .inr (.inl ⟨h0, _, rfl⟩)
  · cases i with
    | encode n =>
      rcases encodeWith_cases (Config.primitives s.cfg) n s with
        ⟨hx, -⟩ | ⟨-, -, e'⟩ | ⟨-, -, -, e'⟩ | ⟨p, -, hn, hl, hp, e'⟩
      · exact absurd h0 hx
      · cases (h.symm.trans e).trans e'; exact .inr (.inl ⟨h0, _, rfl⟩)
      · cases (h.symm.trans e).trans e'; exact .inr (.inl ⟨h0, _, rfl⟩)
      · cases (h.symm.trans e).trans e'; exact .inr (.inr (.inl ⟨n, p, h0, hd, hn, hl, hp, rfl⟩))
    | decode len =>
      rcases decodeWith_cases (Config.primitives s.cfg) len s with
        ⟨hx, -⟩ | ⟨-, -, e'⟩ | ⟨-, -, e'⟩ | ⟨-, -, -, -, e'⟩ | ⟨f, -, h8, hn, hl, hf, e'⟩
      · exact absurd h0 hx
      · cases (h.symm.trans e).trans e'; exact .inr (.inl ⟨h0, _, rfl⟩)
      · cases (h.symm.trans e).trans e'; exact .inr (.inl ⟨h0, _, rfl⟩)
      · cases (h.symm.trans e).trans e'; exact .inr (.inl ⟨h0, _, rfl⟩)
      · cases (h.symm.trans e).trans e'; exact .inr (.inr (.inr ⟨len, f, h0, hd, h8, hn, hl, hf, rfl⟩))

/-- All that a move of the host can do to the state: reset, a command, one buffer byte (made `⊥` only by a copy, in
`RXBUF`), a value read, or nothing. -/
theorem hostMove_cases {a : HostAction} {s t : State} (h : hostMove a s = .next t) :
    (∃ k, a = .reset k ∧ t = resetBlock k s)
      ∨ (∃ w, a = .writeReg 0 w ∧ issueCommand w s = .next t)
      ∨ (∃ b i v, i < SessionConfig.cap s.cfg b ∧ (v = none → b = .rxbuf) ∧ a.issuesEncode = false
          ∧ t = s.setBuf b ((s.buf b).put i v))
      ∨ (∃ v, a.issuesEncode = false ∧ t = hostTakes v s)
      ∨ (a.issuesEncode = false ∧ t = s) := by
  cases a with
  | reset k => cases h; exact .inl ⟨k, rfl, rfl⟩
  | writeReg index w =>
    rcases writeIndex_cases index w s with ⟨rfl, -, e⟩ | ⟨-, hr, e⟩
    · exact .inr (.inl ⟨w, rfl, e.symm.trans h⟩)
    · cases h.symm.trans e
      refine .inr (.inr (.inr (.inr ⟨?_, rfl⟩)))
      simp only [HostAction.issuesEncode]
      split <;> simp_all
  | readReg index => cases h; exact .inr (.inr (.inr (.inl ⟨_, rfl, rfl⟩)))
  | readByte b i => cases h; exact .inr (.inr (.inr (.inl ⟨_, rfl, rfl⟩)))
  | writeByte b i v =>
    rcases hostPut_cases b i (some v) s with ⟨hi, e⟩ | ⟨-, e⟩
    · cases h; exact .inr (.inr (.inl ⟨b, i, some v, hi, by simp, rfl, e⟩))
    · cases h; exact .inr (.inr (.inr (.inr ⟨rfl, e⟩)))
  | copyByte i j =>
    rcases hostPut_cases .rxbuf j (hostByte .txbuf i s) s with ⟨hj, e⟩ | ⟨-, e⟩
    · cases h; exact .inr (.inr (.inl ⟨.rxbuf, j, _, hj, fun _ => rfl, rfl, e⟩))
    · cases h; exact .inr (.inr (.inr (.inr ⟨rfl, e⟩)))

/-- All a step can do: the idle step, or the next move of the script. -/
theorem step_cases {s t : State} (h : step s = .next t) :
    (s.script = [] ∧ t = s) ∨ ∃ a rest, s.script = a :: rest ∧ hostMove a { s with script := rest } = .next t := by
  cases hs : s.script with
  | nil => rw [step_idle hs] at h; cases h; exact .inl ⟨rfl, rfl⟩
  | cons a rest => rw [step_cons hs] at h; exact .inr ⟨a, rest, rfl, h⟩

/-- No move writes the script. -/
theorem hostMove_script {a : HostAction} {s t : State} (h : hostMove a s = .next t) : t.script = s.script := by
  rcases hostMove_cases h with ⟨k, -, rfl⟩ | ⟨w, -, hc⟩ | ⟨b, i, v, -, -, -, rfl⟩ | ⟨v, -, rfl⟩ | ⟨-, rfl⟩
  · rfl
  · rcases issueCommand_next hc with rfl | ⟨-, c, rfl⟩ | ⟨n, p, -, -, -, -, -, rfl⟩ | ⟨len, f, -, -, -, -, -, -, rfl⟩
    · rfl
    · rfl
    · rfl
    · exact (completeDecode_frame _ _ _ _).2.2.2.2.2.2.1
  · simp
  · rfl
  · rfl

/-- No command word writes what the host has read. -/
theorem issueCommand_hostData {w : Half} {s t : State} (h : issueCommand w s = .next t) : t.hostData = s.hostData := by
  rcases issueCommand_next h with rfl | ⟨-, c, rfl⟩ | ⟨n, p, -, -, -, -, -, rfl⟩ | ⟨len, f, -, -, -, -, -, -, rfl⟩
  · rfl
  · rfl
  · rfl
  · exact (completeDecode_frame _ _ _ _).2.2.2.2.2.2.2

/-- No host write to a buffer writes what the host has read. -/
theorem hostPut_hostData (b : Buffer) (index : Nat) (v : Option Byte) (s : State) :
    (hostPut b index v s).hostData = s.hostData := by
  rcases hostPut_cases b index v s with ⟨-, e⟩ | ⟨-, e⟩ <;> simp [e]

/-- A command word does the same to the block whatever the host has still to do and whatever it has read before. -/
theorem issueCommand_agent {w : Half} {s t : State} (h : issueCommand w s = .next t) (l : List HostAction)
    (d : Option HostDatum) :
    issueCommand w { s with script := l, hostData := d } = .next { t with script := l, hostData := d } := by
  rcases issueCommand_cases w s with ⟨hx, e⟩ | ⟨h0, ⟨er, hd⟩, e⟩ | ⟨i, h0, hd, e⟩
  · cases h.symm.trans e
    rcases issueCommand_cases w { s with script := l, hostData := d } with ⟨-, e'⟩ | ⟨h0, -⟩ | ⟨-, h0, -⟩
    · exact e'
    · exact absurd h0 hx
    · exact absurd h0 hx
  · cases h.symm.trans e
    rw [issueCommand_error hd]
    exact whenRunning_running (s := { s with script := l, hostData := d }) h0 _
  · rw [issueCommand_ok hd]
    cases i with
    | encode n =>
      rcases encodeWith_cases (Config.primitives s.cfg) n s with
        ⟨hx, -⟩ | ⟨-, hn, e'⟩ | ⟨-, hn, hr, e'⟩ | ⟨p, -, hn, hl, hp, e'⟩
      · exact absurd h0 hx
      · cases (h.symm.trans e).trans e'; exact encodeWith_overflow _ h0 hn
      · cases (h.symm.trans e).trans e'; exact encodeWith_unwritten _ h0 hn hr
      · cases (h.symm.trans e).trans e'; exact encodeWith_completes _ h0 hn hl hp
    | decode len =>
      rcases decodeWith_cases (Config.primitives s.cfg) len s with
        ⟨hx, -⟩ | ⟨-, h8, e'⟩ | ⟨-, hl, e'⟩ | ⟨-, h8, hl, hr, e'⟩ | ⟨f, -, h8, hl, hf, hh, e'⟩
      · exact absurd h0 hx
      · cases (h.symm.trans e).trans e'; exact decodeWith_tooShort _ h0 h8
      · cases (h.symm.trans e).trans e'; exact decodeWith_tooLong _ h0 hl
      · cases (h.symm.trans e).trans e'; exact decodeWith_unwritten _ h0 h8 hl hr
      · cases (h.symm.trans e).trans e'
        exact (decodeWith_completes (s := { s with script := l, hostData := d }) _ h0 h8 hl hf hh).trans
          (congrArg _ (completeDecode_agent _ _ _ s l d))

/-- A host write to a buffer does the same whatever the host has still to do and whatever it has read before. -/
theorem hostPut_agent (b : Buffer) (index : Nat) (v : Option Byte) (s : State) (l : List HostAction)
    (d : Option HostDatum) :
    hostPut b index v { s with script := l, hostData := d }
      = { hostPut b index v s with script := l, hostData := d } := by
  unfold hostPut
  split <;> cases b <;> rfl

/-- A move does the same to the block whatever the host has still to do and whatever it has read before. -/
theorem hostMove_agent {a : HostAction} {s t : State} (h : hostMove a s = .next t) (l : List HostAction)
    (d : Option HostDatum) :
    ∃ d', hostMove a { s with script := l, hostData := d } = .next { t with script := l, hostData := d' }
      ∧ (d = s.hostData → d' = t.hostData) := by
  cases a with
  | reset k => cases h; exact ⟨d, rfl, id⟩
  | writeReg index w =>
    rcases writeIndex_cases index w s with ⟨rfl, -, e⟩ | ⟨hi, -, e⟩
    · exact ⟨d, issueCommand_agent (e.symm.trans h) l d, fun hd => hd.trans (issueCommand_hostData (e.symm.trans h)).symm⟩
    · cases h.symm.trans e
      rcases writeIndex_cases index w { s with script := l, hostData := d } with ⟨hx, -⟩ | ⟨-, -, e'⟩
      · exact absurd hx hi
      · exact ⟨d, e', id⟩
  | readReg index => cases h; exact ⟨_, rfl, fun _ => rfl⟩
  | readByte b i => cases h; cases b <;> exact ⟨_, rfl, fun _ => rfl⟩
  | writeByte b i v =>
    cases h; exact ⟨d, congrArg _ (hostPut_agent ..), fun hd => hd.trans (hostPut_hostData ..).symm⟩
  | copyByte i j =>
    cases h; exact ⟨d, congrArg _ (hostPut_agent ..), fun hd => hd.trans (hostPut_hostData ..).symm⟩

/-! ## Runs -/

theorem runScript_nil {s : State} (h : s.script = []) : runScript s = .next s := by rw [runScript, h]; rfl

theorem run_succ (M : Host.Core) (k : Nat) {s s' : M.State} (h : M.step s = .next s') : M.run (k + 1) s = M.run k s' := by
  simp [Host.Core.run, h]

/-- Steps of the machine are one step and then the others. -/
theorem run_step (k : Nat) {s s' : State} (h : step s = .next s') :
    Sys2Proof.core.run (k + 1) s = Sys2Proof.core.run k s' :=
  run_succ core k (s := s) h

/-- A run is its first move and then the run of the rest. -/
theorem runScript_cons {s s' : State} {a : HostAction} {rest : List HostAction} (h : s.script = a :: rest)
    (hm : hostMove a { s with script := rest } = .next s') : runScript s = runScript s' := by
  have hs' : s'.script = rest := hostMove_script hm
  rw [runScript, runScript, h, hs']
  exact run_step rest.length ((step_cons h).trans hm)

/-- The first actions of a script bring the block where they bring it with nothing after them, and leave the rest. -/
theorem run_prefix {pre : List HostAction} (post : List HostAction) {s m : State}
    (h : runScript { s with script := pre } = .next m) :
    Sys2Proof.core.run pre.length { s with script := pre ++ post } = .next { m with script := post } := by
  induction pre generalizing s with
  | nil => rw [runScript_nil rfl] at h; cases h; rfl
  | cons a pre ih =>
    obtain ⟨s', hm⟩ := hostMove_next a { s with script := pre }
    have hs' : s' = { s' with script := pre } := by rw [← show s'.script = pre from hostMove_script hm]
    rw [runScript_cons (s := { s with script := a :: pre }) rfl hm, hs'] at h
    obtain ⟨d', hm', hd⟩ := hostMove_agent hm (pre ++ post) s.hostData
    cases hd rfl
    have hstep := (step_cons (s := { s with script := a :: (pre ++ post) }) rfl).trans hm'
    exact (run_step pre.length hstep).trans (ih (s := s') h)

theorem run_add (M : Host.Core) (j k : Nat) {s m : M.State} (h : M.run j s = .next m) :
    M.run (j + k) s = M.run k m := by
  induction j generalizing s with
  | zero => cases h; rw [Nat.zero_add]
  | succ j ih =>
    cases hs : M.step s with
    | next s' => rw [run_succ M j hs] at h; rw [Nat.succ_add, run_succ M _ hs, ih h]
    | fault r => simp [Host.Core.run, hs] at h
    | refused r => simp [Host.Core.run, hs] at h

/-- A script is its first actions and then the rest. -/
theorem runScript_append {pre : List HostAction} (post : List HostAction) {s m : State}
    (h : runScript { s with script := pre } = .next m) :
    runScript { s with script := pre ++ post } = runScript { m with script := post } := by
  rw [runScript, List.length_append]
  exact run_add core _ _ (run_prefix post h)

/-- Every script runs to its end. -/
theorem runScript_next (s : State) : ∃ t, runScript s = .next t := by
  generalize hl : s.script = l
  induction l generalizing s with
  | nil => exact ⟨s, runScript_nil hl⟩
  | cons a rest ih =>
    obtain ⟨s', hm⟩ := hostMove_next a { s with script := rest }
    obtain ⟨t, ht⟩ := ih s' (hostMove_script hm)
    exact ⟨t, (runScript_cons hl hm).trans ht⟩

/-- Induction over a run: a relation between a state and the end of its run that holds of an empty script, and of a
script once it holds after its first move, holds of every run. -/
theorem runScript_induction {C : State → State → Prop} (h0 : ∀ s, s.script = [] → C s s)
    (hstep : ∀ s a rest s' t, s.script = a :: rest → hostMove a { s with script := rest } = .next s' →
      s'.script = rest → runScript s' = .next t → C s' t → C s t) :
    ∀ s t, runScript s = .next t → C s t := by
  intro s
  generalize hl : s.script = l
  induction l generalizing s with
  | nil => intro t h; rw [runScript_nil hl] at h; cases h; exact h0 s hl
  | cons a rest ih =>
    intro t h
    obtain ⟨s', hm⟩ := hostMove_next a { s with script := rest }
    have hs' : s'.script = rest := hostMove_script hm
    rw [runScript_cons hl hm] at h
    exact hstep s a rest s' t hl hm hs' h (ih s' hs' t h)

end Sys2Proof.Machine
end

