-- ==== Sys2Proof/Tests/Slice0.lean ====
section
/-! SUPPORT. Tests and witnesses. The expected results of the tests are vectors of 95_test_vectors.md, with its test
configuration and stub primitives; the witnesses show states and operands that meet the hypotheses of the claims. -/

namespace Sys2Proof.Tests

open Sys2Proof.Machine

/-! ## Well-formedness -/

/-- Smoke test: an operand above 255 is refused. -/
theorem test_encode_operand_256_ill_formed : (Instr.encode 256).wellFormed = false := by decide

/-- Smoke test: an operand above 255 is refused. -/
theorem test_decode_operand_256_ill_formed : (Instr.decode 256).wellFormed = false := by decide

/-- The greatest operand is accepted (rule R62). -/
theorem test_operand_255_well_formed : (Instr.encode 255).wellFormed = true ∧ (Instr.decode 255).wellFormed = true := by
  decide

/-! ## Decoding, bit by bit from rule R60: eight bits of `OP`, eight bits of `LEN` -/

theorem test_decode_encode_word : decode 0b0000000100000011#16 = .ok (.encode 3) := by decide

theorem test_decode_decode_word : decode 0b0000001000010000#16 = .ok (.decode 16) := by decide

theorem test_decode_reserved_word : decode 0b0000001100000000#16 = .error (.reservedOp 0b00000011#8) := by decide

theorem test_encode_words : encode (.encode 67) = 0x0143#16 ∧ encode (.decode 18) = 0x0212#16 := by decide

theorem test_decodeTableWord :
    decodeTableWord 16 0x0103 = some (.encode 3) ∧ decodeTableWord 16 0x0210 = some (.decode 16)
      ∧ decodeTableWord 16 0x0000 = none := by decide

/-- Rule R77: lower-case mnemonic, decimal operand. -/
theorem test_assemble_decimal : assemble ['e', 'n', 'c', 'O', 'D', 'E', ' ', '6', '8'] = .ok (.encode 68) := by decide

/-- Rule R77: an operand above 255 is an error. -/
theorem test_assemble_out_of_range :
    assemble ['D', 'E', 'C', 'O', 'D', 'E', ' ', '0', 'x', '1', '0', '0'] = .error .operandOutOfRange := by decide

/-! ## The test configuration and the stub primitives (95_test_vectors.md §1) -/

/-- The test configuration. -/
def testConfig : SessionConfig where
  devAddr := ⟨0x26#8, 0x01#8, 0x1B#8, 0xDA#8⟩
  nwkSKey := 0x2B7E151628AED2A6ABF7158809CF4F3C#128
  appSKey := 0x0102030405060708090A0B0C0D0E0F10#128
  mhdrTag := 0x40#8
  encBufCap := ⟨80, by decide⟩
  decBufCap := ⟨64, by decide⟩
  decodeDirection := .downlink
  primitives := 0

/-- Byte `i mod 16` of a key, as the vectors write it from the left. -/
def keyByte (K : Key) (i : Nat) : Byte := K.extractLsb' (8 * (15 - i % 16)) 8

/-- 1 for downlink, 0 for uplink. -/
def directionBit : Direction → Byte
  | .uplink => 0#8
  | .downlink => 1#8

/-- The keystream byte of `StubCipher`. -/
def stubStream (c : Half) (d : Direction) (K : Key) (i : Nat) : Byte :=
  keyByte K i + BitVec.ofNat 8 i + lowByte c + highByte c + 0x80#8 * directionBit d

/-- The exclusive or of all bytes. -/
def xorAll (s : List Byte) : Byte := s.foldr (fun v acc => v ^^^ acc) 0#8

/-- The sum of all bytes modulo 256. -/
def sumAll (s : List Byte) : Byte := s.foldr (fun v acc => v + acc) 0#8

/-- `StubCipher` and `StubMic`. -/
def stub : Primitives where
  cipher n s c d K := ⟨(s.toList.mapIdx fun i v => v ^^^ stubStream c d K i).toArray, by simp⟩
  mic n s c d K :=
    ⟨xorAll s.toList ^^^ keyByte K 0, sumAll s.toList, lowByte c ^^^ 0x55#8 * directionBit d,
      highByte c ^^^ BitVec.ofNat 8 n⟩

/-- The reset state with the test configuration, a payload in `PBUF`, a frame in `RXBUF` and a counter. -/
def testState (p f : List Byte) (c : Half) : State :=
  { State.reset with
    cfg := testConfig, pbuf := Memory.writeRange [] 0 p, rxbuf := Memory.writeRange [] 0 f, upcnt := c }

/-- One field of the state a command answers, `none` where it answers none. -/
def after {α : Type} (get : State → α) (o : Host.Outcome State Fault Refusal) : Option α :=
  match o with
  | .next t => some (get t)
  | .fault _ => none
  | .refused _ => none

/-! ## ENCODE and DECODE -/

/-- Vector E3: the frame, byte by byte. -/
theorem test_encode_E3_frame :
    after (fun t => t.txbuf.readRange 0 16) (encodeWith stub 3 (testState [0x41#8, 0x42#8, 0x43#8] [] 0x0102#16))
      = some (some [0x40#8, 0xDA#8, 0x1B#8, 0x01#8, 0x26#8, 0x00#8, 0x02#8, 0x01#8, 0x01#8, 0x45#8, 0x44#8, 0x4B#8,
          0xC5#8, 0x34#8, 0x02#8, 0x0D#8]) := by decide

/-- Vector E4: the counter wraps, and the payload buffer holds the ciphertext. -/
theorem test_encode_E4_wrap :
    after (fun t => (t.upcnt, t.resLen, t.pbuf.readRange 0 3, t.faultCause))
        (encodeWith stub 3 (testState [0x41#8, 0x42#8, 0x43#8] [] 0xFFFF#16))
      = some (0x0000#16, some 16#8, some [0xBE#8, 0x43#8, 0x40#8], 0#8) := by decide

/-- The frame of vector D13. -/
def frameD13 : List Byte :=
  [0x60#8, 0xDA#8, 0x1B#8, 0x01#8, 0x26#8, 0x01#8, 0x34#8, 0x12#8, 0x01#8, 0x06#8, 0x8F#8, 0x80#8, 0x82#8, 0xD9#8, 0x61#8,
    0x1E#8]

/-- Vector D13: success behind one option byte. -/
theorem test_decode_D13_success :
    after (fun t => (t.resOff, t.decStatus, t.rxbuf.readRange 0 16)) (decodeWith stub 16 (testState [] frameD13 0#16))
      = some (some 10#8, 1#8, some [0x60#8, 0xDA#8, 0x1B#8, 0x01#8, 0x26#8, 0x01#8, 0x34#8, 0x12#8, 0x01#8, 0x06#8,
          0x48#8, 0x49#8, 0x82#8, 0xD9#8, 0x61#8, 0x1E#8]) := by decide

/-- Vector D8: the options run past the payload end, and the payload length is negative. -/
theorem test_decode_D8_negative_length :
    after (fun t => (t.resOff, t.decStatus, t.faultCause))
        (decodeWith stub 13 (testState [] [0x60#8, 0xDA#8, 0x1B#8, 0x01#8, 0x26#8, 0x0F#8, 0x07#8, 0x00#8, 0x01#8, 0xA4#8,
          0x93#8, 0x52#8, 0x09#8] 0#16))
      = some (some 0xFF#8, 3#8, 0#8) := by decide

/-! ## The host -/

/-- A word placed by `withFetchWord` is the very next command (program P4: `ENCODE 2` with `PBUF` unwritten). -/
theorem test_withFetchWord_runs_next :
    after (fun t => (t.faultCause, t.script, t.upcnt)) (step ((testState [] [] 0#16).withFetchWord 16 0x0102))
      = some (5#8, [], 0#16) := by decide

/-- Rule R28: a reserved register index reads as no value, the counter as a 16-bit one. -/
theorem test_register_reads :
    readIndex 6 (testState [] [] 7#16) = none ∧ readIndex 1 (testState [] [] 7#16) = some (.half 7#16)
      ∧ readIndex 2 (testState [] [] 7#16) = none := by decide

/-! ## The stub primitives meet the named assumptions -/

theorem stub_involutive : CipherInvolutive stub := by
  intro n s c d K
  apply Vector.toList_inj.1
  simp only [stub, Vector.toList_mk, List.mapIdx_mapIdx]
  apply List.ext_getElem
  · simp
  · intro i h1 h2
    simp

theorem xorAll_flipBit (s : List Byte) (i b : Nat) (h : i < s.length) :
    xorAll (flipBit s i b) = xorAll s ^^^ (1#8 <<< b) := by
  induction s generalizing i with
  | nil => simp at h
  | cons v s ih =>
    cases i with
    | zero =>
      simp only [flipBit, List.modify_zero_cons, xorAll, List.foldr_cons]
      rw [BitVec.xor_assoc, BitVec.xor_comm (1#8 <<< b), ← BitVec.xor_assoc]
    | succ i =>
      have := ih i (by simpa using h)
      simp only [flipBit, xorAll] at this
      simp only [flipBit, List.modify_succ_cons, xorAll, List.foldr_cons, this, BitVec.xor_assoc]

theorem one_bit_ne_zero (b : Nat) (h : b < 8) : (1#8 <<< b) ≠ 0#8 := by
  have key : ∀ b : Fin 8, (1#8 <<< b.val) ≠ 0#8 := by decide
  exact key ⟨b, h⟩

theorem xor_ne_self {n : Nat} {v x : BitVec n} (h : x ≠ 0#n) : v ^^^ x ≠ v := fun hx => h <| by
  have := congrArg (v ^^^ ·) hx
  simpa [← BitVec.xor_assoc] using this

theorem stub_detects_bit_flip : MicDetectsBitFlip stub where
  input := by
    intro n s s' i b c c' d K hi hb hs _ h
    have hx := congrArg MicTag.m0 h
    simp only [stub, hs, xorAll_flipBit _ _ _ (by simpa using hi : i < s.toList.length)] at hx
    rw [BitVec.xor_assoc, BitVec.xor_comm (1#8 <<< b), ← BitVec.xor_assoc] at hx
    exact xor_ne_self (one_bit_ne_zero b hb) hx
  counter := by
    rintro n s c c' d K ⟨b, hb, rfl⟩ h
    have key : ∀ b : Fin 16, lowByte (1#16 <<< b.val) ≠ 0#8 ∨ highByte (1#16 <<< b.val) ≠ 0#8 := by decide
    have hl : lowByte (c ^^^ (1#16 <<< b)) = lowByte c ^^^ lowByte (1#16 <<< b) := by
      ext j hj; simp [lowByte]
    have hh : highByte (c ^^^ (1#16 <<< b)) = highByte c ^^^ highByte (1#16 <<< b) := by
      ext j hj; simp [highByte]
    rcases key ⟨b, hb⟩ with hk | hk
    · have hx := congrArg MicTag.m2 h
      simp only [stub, hl] at hx
      rw [BitVec.xor_assoc, BitVec.xor_comm (lowByte (1#16 <<< b)), ← BitVec.xor_assoc] at hx
      exact xor_ne_self hk hx
    · have hx := congrArg MicTag.m3 h
      simp only [stub, hh] at hx
      rw [BitVec.xor_assoc, BitVec.xor_comm (highByte (1#16 <<< b)), ← BitVec.xor_assoc] at hx
      exact xor_ne_self hk hx

/-! ## Witnesses: states and operands that meet the hypotheses of the claims -/

/-- A state with moves of the host to come. -/
def scripted (s : State) (l : List HostAction) : State := { s with script := l }

/-- A halted state. -/
def haltedState : State := raiseFault .illegalCommand (testState [0x41#8] frameD13 3#16)

/-- A state with a payload of three bytes and a frame of sixteen. -/
def loadedState : State := testState [0x41#8, 0x42#8, 0x43#8] frameD13 0x0102#16

/-- A payload that fills `PBUF`. -/
def fullState : State := testState (List.replicate 67 0xAA#8) [] 0#16

/-- Every byte of a string written from index 0 on has a value. -/
theorem read_written (p : List Byte) : ∀ i < p.length, (Memory.writeRange [] 0 p).read i ≠ none := fun i hi => by
  rw [read_writeRange, if_pos (by omega), List.getElem?_eq_getElem (by omega)]
  exact Option.some_ne_none _

/-- All 67 bytes of the full payload are written. -/
theorem fullState_written : ∀ i < 67, fullState.pbuf.read i ≠ none := read_written (List.replicate 67 0xAA#8)

theorem witness_DecodeAndEncodeAgree :
    (Instr.decode 255).wellFormed = true ∧ decode 0x02FF#16 = .ok (.decode 255) := by decide

theorem witness_AssemblerFollowsItsRule :
    ['E', 'n', 'c', 'o', 'd', 'e'].map Char.toLower = ['e', 'n', 'c', 'o', 'd', 'e']
      ∧ ['D', 'E', 'C', 'O', 'D', 'E'].map Char.toLower = ['d', 'e', 'c', 'o', 'd', 'e']
      ∧ ' ' ∉ ['N', 'O', 'P'] ∧ ['N', 'O', 'P'].map Char.toLower ≠ ['e', 'n', 'c', 'o', 'd', 'e']
      ∧ ['N', 'O', 'P'].map Char.toLower ≠ ['d', 'e', 'c', 'o', 'd', 'e'] ∧ 255 ≤ 255 ∧ ¬ 256 ≤ 255 := by decide

theorem witness_StepRunsTheIssuedCommand :
    (scripted loadedState [.writeReg 0 0x0103#16, .readReg 1]).script = .writeReg 0 0x0103#16 :: [.readReg 1]
      ∧ decode 0x0103#16 = .ok (.encode 3) := by decide

theorem witness_ReservedWordFaults :
    (scripted loadedState [.writeReg 0 0x0300#16]).script = .writeReg 0 0x0300#16 :: []
      ∧ (scripted loadedState [.writeReg 0 0x0300#16]).faultCause = 0#8
      ∧ (0x0300#16).extractLsb' 8 8 ≠ 0x01#8 ∧ (0x0300#16).extractLsb' 8 8 ≠ 0x02#8 := ⟨rfl, rfl, by decide, by decide⟩

theorem witness_HaltedBlockIgnoresEveryCommand :
    haltedState.faultCause ≠ 0#8
      ∧ (scripted haltedState [.writeReg 0 0x0100#16]).script = .writeReg 0 0x0100#16 :: [] := ⟨by decide, rfl⟩

/-- The checks at their boundaries: `LEN` 67 and 68 for ENCODE, 7, 8, 64 and 65 for DECODE; written and unwritten. -/
theorem witness_CommandChecksInOrder :
    (scripted loadedState [.writeReg 0 (0x01#8 ++ 0x44#8)]).script = .writeReg 0 (0x01#8 ++ 0x44#8) :: []
      ∧ haltedState.faultCause ≠ 0#8 ∧ loadedState.faultCause = 0#8
      ∧ (0x00#8 : Byte) ≠ 0x01#8 ∧ (0x03#8 : Byte) ≠ 0x02#8
      ∧ loadedState.cfg.pbufCap < (0x44#8).toNat
      ∧ ((0x43#8).toNat ≤ fullState.cfg.pbufCap ∧ ∀ j < (0x43#8).toNat, fullState.pbuf.read j ≠ none)
      ∧ ((0x04#8).toNat ≤ loadedState.cfg.pbufCap ∧ ∃ j < (0x04#8).toNat, loadedState.pbuf.read j = none)
      ∧ (0x07#8).toNat < 8 ∧ loadedState.cfg.decBufCap.val < (0x41#8).toNat
      ∧ (8 ≤ (0x40#8).toNat ∧ (0x40#8).toNat ≤ loadedState.cfg.decBufCap.val
          ∧ ∃ j < (0x40#8).toNat, loadedState.rxbuf.read j = none)
      ∧ (8 ≤ (0x08#8).toNat ∧ (0x08#8).toNat ≤ loadedState.cfg.decBufCap.val
          ∧ ∀ j < (0x08#8).toNat, loadedState.rxbuf.read j ≠ none) :=
  ⟨rfl, by decide, rfl, by decide, by decide, by decide, ⟨by decide, fullState_written⟩, by decide, by decide, by decide,
    ⟨by decide, by decide, 16, by decide, rfl⟩, by decide⟩

theorem witness_EncodeFaultsOnOverflow : loadedState.faultCause = 0#8 ∧ 68 > loadedState.cfg.pbufCap := by decide

theorem witness_EncodeNeedsAWrittenPayload :
    loadedState.faultCause = 0#8 ∧ 4 ≤ loadedState.cfg.pbufCap ∧ (∃ i < 4, loadedState.pbuf.read i = none)
      ∧ fullState.faultCause = 0#8 ∧ 67 ≤ fullState.cfg.pbufCap ∧ ∀ i < 67, fullState.pbuf.read i ≠ none :=
  ⟨rfl, by decide, by decide, rfl, by decide, fullState_written⟩

/-- The hypotheses that the header, MIC, counter and frame claims of ENCODE share. -/
theorem witness_EncodeWritesTheHeader :
    loadedState.faultCause = 0#8 ∧ 3 ≤ loadedState.cfg.pbufCap ∧ ∀ i < 3, loadedState.pbuf.read i ≠ none := by decide

theorem witness_EncodeAppendsTheMic :
    loadedState.faultCause = 0#8 ∧ 0 ≤ loadedState.cfg.pbufCap ∧ ∀ i < 0, loadedState.pbuf.read i ≠ none := by decide

theorem witness_EncodeAdvancesTheCounter :
    ∃ t, fullState.faultCause = 0#8 ∧ 67 ≤ fullState.cfg.pbufCap ∧ (∀ i < 67, fullState.pbuf.read i ≠ none)
      ∧ exec (.encode 68) loadedState = .next t ∧ t.faultCause ≠ 0#8 :=
  ⟨_, rfl, by decide, fullState_written, rfl, by decide⟩

theorem witness_EncodeChangesNothingElse :
    loadedState.faultCause = 0#8 ∧ 2 ≤ loadedState.cfg.pbufCap ∧ ∀ i < 2, loadedState.pbuf.read i ≠ none := by decide

theorem witness_EncodeEncryptsThePayload :
    loadedState.faultCause = 0#8 ∧ 3 ≤ loadedState.cfg.pbufCap
      ∧ loadedState.pbuf.holds 0 (⟨#[0x41#8, 0x42#8, 0x43#8], rfl⟩ : Vector Byte 3).toList :=
  ⟨rfl, by decide, holds_writeRange _ _ _⟩

theorem witness_EncodeDependsOnlyOnItsInputs :
    ∃ t t', loadedState.faultCause = 0#8 ∧ (testState [0x41#8, 0x42#8] [] 0x0102#16).faultCause = 0#8
      ∧ loadedState.cfg = (testState [0x41#8, 0x42#8] [] 0x0102#16).cfg
      ∧ loadedState.upcnt = (testState [0x41#8, 0x42#8] [] 0x0102#16).upcnt
      ∧ (∀ i < 2, loadedState.pbuf.read i = (testState [0x41#8, 0x42#8] [] 0x0102#16).pbuf.read i)
      ∧ exec (.encode 2) loadedState = .next t ∧ exec (.encode 2) (testState [0x41#8, 0x42#8] [] 0x0102#16) = .next t'
      ∧ t.faultCause = 0#8 := by
  exact ⟨_, _, rfl, rfl, rfl, rfl, by decide, rfl, rfl, rfl⟩

/-- A run that ends normally: `RESET`, an ENCODE without payload, and a register read. -/
def normalRun : List HostAction := [.reset none, .writeReg 0 0x0100#16, .readReg 1]

theorem normalRun_endsNormally : EndsNormally (scripted haltedState normalRun) := by
  refine ⟨⟨_, _, rfl⟩, ⟨_, rfl, rfl⟩, ?_⟩
  rintro ⟨n, t, h1, h2, h, hf⟩
  rcases n with _ | _ | _ | _ | n
  · omega
  · cases h; exact hf rfl
  · cases h; exact hf rfl
  · cases h; exact hf rfl
  · simp [scripted, normalRun] at h2; omega

theorem witness_CounterCountsTheEncodesOfARun :
    (∃ t, (∀ a ∈ (scripted loadedState [.writeReg 0 0x0103#16, .readReg 1, .writeReg 0 0x0100#16]).script,
        a.noReset = true)
      ∧ runScript (scripted loadedState [.writeReg 0 0x0103#16, .readReg 1, .writeReg 0 0x0100#16]) = .next t
      ∧ t.faultCause = 0#8)
      ∧ (scripted haltedState normalRun).script = .reset none :: [.writeReg 0 0x0100#16, .readReg 1]
      ∧ (∀ a ∈ [HostAction.writeReg 0 0x0100#16, .readReg 1], a.noReset = true)
      ∧ EndsNormally (scripted haltedState normalRun) :=
  ⟨⟨_, by decide, rfl, rfl⟩, rfl, by decide, normalRun_endsNormally⟩

theorem witness_DecodeFaultsOnLength :
    loadedState.faultCause = 0#8 ∧ 7 < 8 ∧ 65 > loadedState.cfg.decBufCap.val := by decide

theorem witness_DecodeNeedsAWrittenFrame :
    loadedState.faultCause = 0#8 ∧ 8 ≤ 64 ∧ 64 ≤ loadedState.cfg.decBufCap.val
      ∧ (∃ i < 64, loadedState.rxbuf.read i = none) ∧ ∀ i < 8, loadedState.rxbuf.read i ≠ none :=
  ⟨rfl, by decide, by decide, ⟨16, by decide, rfl⟩, by decide⟩

theorem witness_DecodeChangesNothingElse :
    loadedState.faultCause = 0#8 ∧ 8 ≤ 16 ∧ 16 ≤ loadedState.cfg.decBufCap.val
      ∧ ∀ i < 16, loadedState.rxbuf.read i ≠ none := by decide

/-! The primitives of a configuration are uninterpreted, so a frame with a matching MIC is made with `Config.mic`
itself. -/

/-- The MIC of a downlink string under the test configuration. -/
def sealTag {n : Nat} (v : Vector Byte n) (c : Half) : MicTag :=
  Config.mic testConfig n v c .downlink testConfig.nwkSKey

/-- A state whose `RXBUF` holds a string and four MIC bytes. -/
def sealed (f : List Byte) (m : MicTag) : State := testState [] (f ++ [m.m0, m.m1, m.m2, m.m3]) 0#16

/-- The shortest frame DECODE admits: its counter bytes lie in the MIC field. -/
def pre4 : Vector Byte 4 := ⟨#[0x60#8, 0xDA#8, 0x1B#8, 0x01#8], rfl⟩

/-- A MIC field that is not the MIC of `pre4`. -/
def wrongTag : MicTag := ⟨(sealTag pre4 0#16).m0 + 1#8, 0#8, 0#8, 0#8⟩

theorem witness_DecodeRejectsAWrongMic :
    (sealed pre4.toList wrongTag).faultCause = 0#8 ∧ 4 ≤ 4 ∧ 4 + 4 ≤ (sealed pre4.toList wrongTag).cfg.decBufCap.val
      ∧ (sealed pre4.toList wrongTag).rxbuf.holds 0
          (pre4.toList ++ [wrongTag.m0, wrongTag.m1, wrongTag.m2, wrongTag.m3])
      ∧ (sealed pre4.toList wrongTag).rxbuf.read 6 = some 0#8 ∧ (sealed pre4.toList wrongTag).rxbuf.read 7 = some 0#8
      ∧ Config.mic (sealed pre4.toList wrongTag).cfg 4 pre4 (0#8 ++ 0#8)
          (sealed pre4.toList wrongTag).cfg.decodeDirection (sealed pre4.toList wrongTag).cfg.nwkSKey ≠ wrongTag := by
  refine ⟨rfl, by decide, by decide, holds_writeRange _ _ _, rfl, rfl, fun h => ?_⟩
  have h0 : (sealTag pre4 0#16).m0 = (sealTag pre4 0#16).m0 + 1#8 := congrArg MicTag.m0 h
  simp at h0

/-- Eight bytes: with `k = 0` the payload length is -1. -/
def pre8 : Vector Byte 8 := ⟨#[0x60#8, 0xDA#8, 0x1B#8, 0x01#8, 0x26#8, 0x00#8, 0x34#8, 0x12#8], rfl⟩

theorem witness_DecodeReportsAnEmptyPayload :
    (sealed pre8.toList (sealTag pre8 0x1234#16)).faultCause = 0#8 ∧ 4 ≤ 8
      ∧ 8 + 4 ≤ (sealed pre8.toList (sealTag pre8 0x1234#16)).cfg.decBufCap.val
      ∧ (sealed pre8.toList (sealTag pre8 0x1234#16)).rxbuf.holds 0
          (pre8.toList ++ [(sealTag pre8 0x1234#16).m0, (sealTag pre8 0x1234#16).m1, (sealTag pre8 0x1234#16).m2,
            (sealTag pre8 0x1234#16).m3])
      ∧ (sealed pre8.toList (sealTag pre8 0x1234#16)).rxbuf.read 5 = some 0x00#8
      ∧ (sealed pre8.toList (sealTag pre8 0x1234#16)).rxbuf.read 6 = some 0x34#8
      ∧ (sealed pre8.toList (sealTag pre8 0x1234#16)).rxbuf.read 7 = some 0x12#8
      ∧ Config.mic testConfig 8 pre8 (0x12#8 ++ 0x34#8) .downlink testConfig.nwkSKey = sealTag pre8 0x1234#16
      ∧ ((8 : Nat) : Int) - (9 + ((0x00#8).toNat % 16 : Nat)) ≤ 0 :=
  ⟨rfl, by decide, by decide, holds_writeRange _ _ _, rfl, rfl, rfl, rfl, by decide⟩

/-- A header with `k = 1` and its option byte. -/
def hdr10 : Vector Byte 10 :=
  ⟨#[0x60#8, 0xDA#8, 0x1B#8, 0x01#8, 0x26#8, 0x01#8, 0x34#8, 0x12#8, 0x01#8, 0x06#8], rfl⟩

/-- A payload of one byte, the shortest. -/
def ct1 : Vector Byte 1 := ⟨#[0x8F#8], rfl⟩

/-- The MIC of that frame. -/
def tag11 : MicTag := sealTag (hdr10 ++ ct1) 0x1234#16

theorem witness_DecodeDecryptsThePayload :
    (sealed (hdr10.toList ++ ct1.toList) tag11).faultCause = 0#8
      ∧ 10 + 1 + 4 ≤ (sealed (hdr10.toList ++ ct1.toList) tag11).cfg.decBufCap.val
      ∧ (sealed (hdr10.toList ++ ct1.toList) tag11).rxbuf.holds 0
          (hdr10.toList ++ ct1.toList ++ [tag11.m0, tag11.m1, tag11.m2, tag11.m3])
      ∧ (sealed (hdr10.toList ++ ct1.toList) tag11).rxbuf.read 5 = some 0x01#8
      ∧ (sealed (hdr10.toList ++ ct1.toList) tag11).rxbuf.read 6 = some 0x34#8
      ∧ (sealed (hdr10.toList ++ ct1.toList) tag11).rxbuf.read 7 = some 0x12#8
      ∧ 10 = 9 + (0x01#8).toNat % 16 ∧ 0 < 1
      ∧ Config.mic testConfig (10 + 1) (hdr10 ++ ct1) (0x12#8 ++ 0x34#8) .downlink testConfig.nwkSKey = tag11 :=
  ⟨rfl, by decide, holds_writeRange _ _ _, rfl, rfl, rfl, by decide, by decide, rfl⟩

/-- A block that differs from `loadedState` in all that DECODE does not read. -/
def otherState : State :=
  { loadedState with upcnt := 9#16, pbuf := [], txbuf := [(0, 1#8)], resLen := some 13#8, resOff := some 9#8 }

theorem witness_DecodeSeesOnlyItsFrame :
    ∃ t t', loadedState.faultCause = 0#8 ∧ otherState.faultCause = 0#8
      ∧ loadedState.cfg.decBufCap = otherState.cfg.decBufCap
      ∧ loadedState.cfg.decodeDirection = otherState.cfg.decodeDirection
      ∧ loadedState.cfg.nwkSKey = otherState.cfg.nwkSKey ∧ loadedState.cfg.appSKey = otherState.cfg.appSKey
      ∧ (∀ i < 16, loadedState.rxbuf.read i = otherState.rxbuf.read i)
      ∧ decodeWith stub 16 loadedState = .next t ∧ decodeWith stub 16 otherState = .next t' ∧ t.faultCause = 0#8 :=
  ⟨_, _, rfl, rfl, rfl, rfl, rfl, rfl, fun _ _ => rfl, rfl, rfl, by decide⟩

theorem witness_PayloadOffsetIsNinePlusLowNibble : (0x02#8).extractLsb' 0 4 = (0xF2#8).extractLsb' 0 4 := by decide

/-- Vectors D1 and D2. -/
theorem witness_OptionsShiftThePayloadOffset :
    ∃ (s s' t t' : State) (r r' : Byte), s.faultCause = 0#8 ∧ s'.faultCause = 0#8
      ∧ s.rxbuf.read 5 = some 0x00#8 ∧ s'.rxbuf.read 5 = some 0x02#8
      ∧ (0x00#8).toNat % 16 = 0 ∧ (0x02#8).toNat % 16 = 2
      ∧ decodeWith stub 15 s = .next t ∧ decodeWith stub 17 s' = .next t' ∧ t.faultCause = 0#8 ∧ t'.faultCause = 0#8
      ∧ t.decStatus = 0x01#8 ∧ t'.decStatus = 0x01#8 ∧ t.resOff = some r ∧ t'.resOff = some r' :=
  ⟨testState [] [0x60#8, 0xDA#8, 0x1B#8, 0x01#8, 0x26#8, 0x00#8, 0x05#8, 0x00#8, 0x01#8, 0xCE#8, 0xC1#8, 0xA6#8, 0x11#8,
      0x50#8, 0x0B#8] 0#16,
    testState [] [0x60#8, 0xDA#8, 0x1B#8, 0x01#8, 0x26#8, 0x02#8, 0x05#8, 0x00#8, 0x01#8, 0x03#8, 0x04#8, 0xCE#8, 0xC1#8,
      0xA3#8, 0x1A#8, 0x50#8, 0x0D#8] 0#16,
    _, _, 9#8, 11#8, rfl, rfl, rfl, rfl, by decide, by decide, rfl, rfl, by decide, by decide, by decide, by decide,
    by decide, by decide⟩

/-- The loopback harness. -/
def loopState (p : List Byte) : State :=
  { testState p [] 0#16 with cfg := { testConfig with decodeDirection := .uplink } }

/-- The payload of program P2. -/
def hello : Vector Byte 5 := ⟨#[0x48#8, 0x45#8, 0x4C#8, 0x4C#8, 0x4F#8], rfl⟩

theorem witness_LoopbackRoundTrip :
    (loopState hello.toList).faultCause = 0#8 ∧ (loopState hello.toList).cfg.decodeDirection = .uplink
      ∧ 5 ≤ (loopState hello.toList).cfg.pbufCap ∧ 13 + 5 ≤ (loopState hello.toList).cfg.decBufCap.val
      ∧ (loopState hello.toList).pbuf.holds 0 hello.toList ∧ 1 ≤ 5 ∧ CipherInvolutive stub
      ∧ (loopState []).pbuf.holds 0 (⟨#[], rfl⟩ : Vector Byte 0).toList :=
  ⟨rfl, rfl, by decide, by decide, holds_writeRange _ _ _, by decide, stub_involutive, holds_writeRange _ _ _⟩

theorem witness_FlippedFrameBitIsRejected :
    ∃ t, MicDetectsBitFlip stub ∧ loadedState.faultCause = 0#8 ∧ decodeWith stub 16 loadedState = .next t
      ∧ t.faultCause = 0#8 ∧ t.decStatus ≠ 0x02#8 ∧ frameD13.length = 16 ∧ loadedState.rxbuf.holds 0 frameD13
      ∧ 7 < 16 - 4 ∧ 7 < 8 ∧ (Memory.writeRange [] 0 (flipBit frameD13 7 7)).holds 0 (flipBit frameD13 7 7) :=
  ⟨_, stub_detects_bit_flip, rfl, rfl, by decide, by decide, rfl, holds_writeRange _ _ _, by decide, by decide,
    holds_writeRange _ _ _⟩

theorem witness_FlippedMicBitIsRejected :
    ∃ t, loadedState.faultCause = 0#8 ∧ decodeWith stub 16 loadedState = .next t
      ∧ t.faultCause = 0#8 ∧ t.decStatus ≠ 0x02#8 ∧ frameD13.length = 16 ∧ loadedState.rxbuf.holds 0 frameD13
      ∧ 16 - 4 ≤ 12 ∧ 12 < 16 ∧ 12 ≠ 6 ∧ 12 ≠ 7 ∧ 0 < 8
      ∧ (Memory.writeRange [] 0 (flipBit frameD13 12 0)).holds 0 (flipBit frameD13 12 0) :=
  ⟨_, rfl, rfl, by decide, by decide, rfl, holds_writeRange _ _ _, by decide, by decide, by decide, by decide, by decide,
    holds_writeRange _ _ _⟩

/-- Read indices 0 to 5, the first reserved index 6 and the last one 255 are all taken by some state. -/
theorem witness_HostRegisterAccess :
    (scripted loadedState [.readReg 255]).script = .readReg 255 :: []
      ∧ (scripted loadedState [.writeReg 1 5#16]).script = .writeReg 1 5#16 :: [] ∧ (1 : Fin 256) ≠ 0
      ∧ (255 : Fin 256) ≠ 0 := ⟨rfl, rfl, by decide, by decide⟩

theorem witness_HostBufferAccess :
    (scripted loadedState [.writeByte .pbuf 66 1#8]).script = .writeByte .pbuf 66 1#8 :: []
      ∧ 66 < SessionConfig.cap loadedState.cfg .pbuf ∧ SessionConfig.cap loadedState.cfg .pbuf ≤ 67
      ∧ (scripted loadedState [.readByte .rxbuf 15]).script = .readByte .rxbuf 15 :: [] :=
  ⟨rfl, by decide, by decide, rfl⟩

/-- A copy inside both buffers, one past `TXBUF` and one past both. -/
theorem witness_CopyMovesTheTransmitBytes :
    ∀ n ∈ [16, 81, 255], (scripted loadedState (scriptCopy n)).script = scriptCopy n := fun _ _ => rfl

theorem witness_ReadReturnsTheLastWrite :
    0 < SessionConfig.cap loadedState.cfg .txbuf
      ∧ (∀ a ∈ [HostAction.readReg 1, .writeByte .txbuf 1 7#8], (∃ j, a = .readReg j) ∨ (∃ b' j, a = .readByte b' j)
          ∨ ∃ b' j u, a = .writeByte b' j u ∧ ¬ (b' = .txbuf ∧ j = 0))
      ∧ (scripted loadedState (.writeByte .txbuf 0 3#8 :: ([.readReg 1, .writeByte .txbuf 1 7#8] ++ [.readByte .txbuf 0]))).script
          = .writeByte .txbuf 0 3#8 :: ([.readReg 1, .writeByte .txbuf 1 7#8] ++ [.readByte .txbuf 0]) := by
  refine ⟨by decide, fun a ha => ?_, rfl⟩
  rcases List.mem_cons.1 ha with rfl | ha
  · exact .inl ⟨1, rfl⟩
  · rw [List.mem_singleton.1 ha]
    exact .inr (.inr ⟨.txbuf, 1, 7#8, rfl, by simp⟩)

theorem witness_HostAccessesAreIdempotent :
    ∃ t, (∃ index, HostAction.readReg 1 = .readReg index)
      ∧ (scripted loadedState [.readReg 1]).script = .readReg 1 :: []
      ∧ step (scripted loadedState [.readReg 1]) = .next t ∧ ∃ b i v, HostAction.writeByte .pbuf 0 1#8 = .writeByte b i v :=
  ⟨_, ⟨1, rfl⟩, rfl, rfl, ⟨.pbuf, 0, 1#8, rfl⟩⟩

theorem witness_ResetSetsEveryRegister :
    ∃ t, (scripted haltedState [.reset none]).script = .reset none :: []
      ∧ (scripted haltedState [.reset (some { testConfig with mhdrTag := 0x80#8 })]).script
          = .reset (some { testConfig with mhdrTag := 0x80#8 }) :: []
      ∧ step (scripted haltedState [.reset (some { testConfig with mhdrTag := 0x80#8 })]) = .next t
      ∧ t.cfg ≠ (scripted haltedState [.reset (some { testConfig with mhdrTag := 0x80#8 })]).cfg :=
  ⟨_, rfl, rfl, rfl, by decide⟩

theorem witness_IdleBlockHoldsItsState : loadedState.script = [] := rfl

theorem witness_EveryStepKeepsTheInvariant :
    ∃ t, Inv (scripted (resetBlock (some testConfig) State.reset) [.writeReg 0 0x0100#16])
      ∧ step (scripted (resetBlock (some testConfig) State.reset) [.writeReg 0 0x0100#16]) = .next t
      ∧ t.resLen = some 13#8 :=
  ⟨_, ⟨.nil, .nil, .nil, nofun, nofun, nofun, nofun, nofun, fun _ => rfl, .inl ⟨rfl, rfl⟩, Nat.zero_le 5⟩, rfl, rfl⟩

theorem witness_OnlyEncodeAndResetMoveTheCounter :
    ∃ t, step (scripted loadedState [.writeReg 0 0x0103#16]) = .next t
      ∧ t.upcnt ≠ (scripted loadedState [.writeReg 0 0x0103#16]).upcnt := ⟨_, rfl, by decide⟩

theorem witness_FaultsArePreciseAndSticky :
    ∃ t, step (scripted loadedState [.writeReg 0 0x0144#16]) = .next t ∧ t.faultCause = 2#8 := ⟨_, rfl, rfl⟩

theorem witness_ResultRegistersHaveOneWriter :
    ∃ t, step (scripted loadedState [.writeReg 0 0x0103#16]) = .next t
      ∧ (∀ k rest, (scripted loadedState [.writeReg 0 0x0103#16]).script ≠ .reset k :: rest)
      ∧ t.resLen ≠ (scripted loadedState [.writeReg 0 0x0103#16]).resLen := ⟨_, rfl, nofun, by decide⟩

theorem witness_HaltedRunKeepsItsRegisters :
    ∃ t, (scripted haltedState [.writeReg 0 0x0100#16, .writeByte .pbuf 0 1#8]).faultCause ≠ 0#8
      ∧ (∀ a ∈ (scripted haltedState [.writeReg 0 0x0100#16, .writeByte .pbuf 0 1#8]).script, a.noReset = true)
      ∧ runScript (scripted haltedState [.writeReg 0 0x0100#16, .writeByte .pbuf 0 1#8]) = .next t :=
  ⟨_, by decide, by decide, rfl⟩

theorem witness_KeysCannotBeRead :
    ∃ t t', (∃ index, HostAction.readReg 1 = .readReg index)
      ∧ (scripted loadedState [.readReg 1]).script = .readReg 1 :: []
      ∧ step (scripted loadedState [.readReg 1]) = .next t
      ∧ step { scripted loadedState [.readReg 1] with
          cfg := { loadedState.cfg with nwkSKey := 0#128, appSKey := 1#128 } } = .next t' :=
  ⟨_, _, ⟨1, rfl⟩, rfl, rfl, rfl⟩

/-- The end of program P3 (95_test_vectors.md §5), cut short: a reserved word faults, and `RESET` clears the fault. -/
def faultedRun : List HostAction := [.reset none, .writeReg 0 0x0300#16] ++ [.reset none]

/-- Its end state has no fault (the last row of P3's table), yet the run has faulted and never ends normally (R139). -/
theorem test_faulted_run_with_a_later_reset :
    (∃ t, runScript (scripted loadedState faultedRun) = .next t ∧ t.faultCause = 0#8)
      ∧ HasFaulted (scripted loadedState faultedRun) ∧ ¬ EndsNormally (scripted loadedState faultedRun) := by
  have hf : HasFaulted (scripted loadedState faultedRun) := ⟨2, _, by decide, by decide, rfl, by decide⟩
  exact ⟨⟨_, rfl, rfl⟩, hf, fun h => h.2.2 hf⟩

/-- Without `RESET` as its first action a script is no run (R139). -/
theorem test_no_run_without_reset : ¬ EndsNormally (scripted loadedState [.readReg 1]) := by
  rintro ⟨⟨k, rest, h⟩, -⟩
  cases h

theorem witness_RunsEndAsTheRuleSays :
    EndsNormally (scripted haltedState normalRun)
      ∧ ∃ m, (scripted loadedState faultedRun).script = [.reset none, .writeReg 0 0x0300#16] ++ [.reset none]
          ∧ [HostAction.reset none, .writeReg 0 0x0300#16] ≠ []
          ∧ runScript { scripted loadedState faultedRun with script := [.reset none, .writeReg 0 0x0300#16] } = .next m
          ∧ m.faultCause ≠ 0#8 :=
  ⟨normalRun_endsNormally, _, rfl, by decide, rfl, by decide⟩

theorem witness_RunDependsOnlyOnItsActions :
    (scripted haltedState normalRun).script = .reset none :: [.writeReg 0 0x0100#16, .readReg 1]
      ∧ (scripted loadedState normalRun).script = .reset none :: [.writeReg 0 0x0100#16, .readReg 1]
      ∧ (none : Option SessionConfig).getD haltedState.cfg = (none : Option SessionConfig).getD loadedState.cfg :=
  ⟨rfl, rfl, rfl⟩

end Sys2Proof.Tests
end

section
/-! PROOFS. The scope of the machine: every step answers a next state (00_scope.md). -/

namespace Sys2Proof.Machine

/-- Settles O40, by cases on the script, as `hostTurn` does: the idle block stays as it is (`step_idle`, log entry 2),
and any other step is the script's first move, which answers a next state whether it completes, faults or is ignored
(`hostMove_next`, log entry 3). -/
theorem everyStepAnswersAState : Obligations.EveryStepAnswersAState := by
  intro s
  cases hs : s.script with
  | nil => exact ⟨s, step_idle hs⟩
  | cons a rest =>
    obtain ⟨t, ht⟩ := hostMove_next a { s with script := rest }
    exact ⟨t, (step_cons hs).trans ht⟩

end Sys2Proof.Machine
end

section
/-! PROOFS. The state: its reset values and invariant, what each step may do to the registers, and what a host read
shows (10_state.md). -/

namespace Sys2Proof.Machine

/-! ## What the host reads -/

/-- The register map of rule R27, read by its index. -/
theorem readIndex_eq (index : Fin 256) (s : State) :
    readIndex index s =
      if index = 1 then some (.half s.upcnt)
      else if index = 2 then s.resLen.map .byte
      else if index = 3 then s.resOff.map .byte
      else if index = 4 then some (.byte s.decStatus)
      else if index = 5 then some (.byte s.faultCause)
      else none := by
  obtain ⟨i, hi⟩ := index
  rcases i with _ | _ | _ | _ | _ | _ | i
  · rfl
  · rfl
  · rfl
  · rfl
  · rfl
  · rfl
  · simp [readIndex, Reg.ofIndex, Fin.ext_iff]

/-- No register shows any part of the configuration. -/
theorem readIndex_cfg (index : Fin 256) (k : SessionConfig) (s : State) :
    readIndex index { s with cfg := k } = readIndex index s := by
  rw [readIndex_eq, readIndex_eq]

/-- No buffer byte depends on a key: the configuration enters by the sizes of the buffers alone. -/
theorem hostByte_keys (b : Buffer) (i : Nat) (k1 k2 : Key) (s : State) :
    hostByte b i { s with cfg := { s.cfg with nwkSKey := k1, appSKey := k2 } } = hostByte b i s := by
  cases b <;> rfl

/-- Settles O30: a read answers what the register map holds at the index (`readIndex_eq`), and a write to an index other
than 0 is no command (`writeIndex_cases`). -/
theorem hostRegisterAccess : Obligations.HostRegisterAccess := by
  intro s index w rest
  constructor
  · intro hs
    rw [step_cons hs, hostMove, readIndex_eq]
    rfl
  · intro hs hi
    rw [step_cons hs, hostMove]
    rcases writeIndex_cases index w { s with script := rest } with ⟨h0, -⟩ | ⟨-, -, e⟩
    · exact absurd h0 hi
    · exact e

/-- Settles O45, by the two kinds of read: of a register (`readIndex_cfg`) and of a buffer byte (`hostByte_keys`). -/
theorem keysCannotBeRead : Obligations.KeysCannotBeRead := by
  intro s t t' k1 k2 a rest ha hs ht ht'
  rw [step_cons hs] at ht
  rw [step_cons (s := { s with cfg := { s.cfg with nwkSKey := k1, appSKey := k2 } }) hs] at ht'
  rcases ha with ⟨index, rfl⟩ | ⟨b, i, rfl⟩
  · cases ht
    cases ht'
    exact readIndex_cfg index _ { s with script := rest }
  · cases ht
    cases ht'
    exact congrArg (Option.map HostDatum.byte) (hostByte_keys b i k1 k2 { s with script := rest })

/-! ## What a step may do to the registers -/

/-- Every step is a reset, or a command word, or leaves the registers as they are (rules R19, R23 to R26). -/
theorem step_registers {s t : State} (h : step s = .next t) :
    (∃ k rest, s.script = .reset k :: rest ∧ t = resetBlock k { s with script := rest })
      ∨ (∃ w rest, s.script = .writeReg 0 w :: rest ∧ issueCommand w { s with script := rest } = .next t)
      ∨ (t.upcnt = s.upcnt ∧ t.resLen = s.resLen ∧ t.resOff = s.resOff ∧ t.decStatus = s.decStatus
          ∧ t.faultCause = s.faultCause) := by
  rcases step_cases h with ⟨-, rfl⟩ | ⟨a, rest, hs, hm⟩
  · exact .inr (.inr ⟨rfl, rfl, rfl, rfl, rfl⟩)
  · rcases hostMove_cases hm with ⟨k, rfl, ht⟩ | ⟨w, rfl, hc⟩ | ⟨b, i, v, -, -, -, rfl⟩ | ⟨v, -, rfl⟩ | ⟨-, rfl⟩
    · exact .inl ⟨k, rest, hs, ht⟩
    · exact .inr (.inl ⟨w, rest, hs, hc⟩)
    · exact .inr (.inr (by simp))
    · exact .inr (.inr ⟨rfl, rfl, rfl, rfl, rfl⟩)
    · exact .inr (.inr ⟨rfl, rfl, rfl, rfl, rfl⟩)

/-- Settles O41: of the four things a command word can do (`issueCommand_next`), only a completed ENCODE writes
`UPCNT`. -/
theorem onlyEncodeAndResetMoveTheCounter : Obligations.OnlyEncodeAndResetMoveTheCounter := by
  intro s t h hne
  rcases step_registers h with ⟨k, rest, hs, rfl⟩ | ⟨w, rest, hs, hc⟩ | ⟨hup, -⟩
  · exact .inl ⟨k, rest, hs, rfl⟩
  · rcases issueCommand_next hc with
      rfl | ⟨-, c, rfl⟩ | ⟨n, p, h0, hd, -, -, -, rfl⟩ | ⟨len, f, -, -, -, -, -, -, rfl⟩
    · exact absurd rfl hne
    · exact absurd rfl hne
    · exact .inr ⟨w, n, rest, hs, hd, h0, h0, by rw [completeEncode_resLen, uplinkLength_eq], rfl⟩
    · exact absurd (completeDecode_frame _ len f _).1 hne
  · exact absurd hup hne

/-- Settles O42: a command word that faults does so from `FAULT_CAUSE` 0 and writes that register alone
(`raiseFault`), with a code from 1 to 5 (`code_range`); one that completes does not write it. -/
theorem faultsArePreciseAndSticky : Obligations.FaultsArePreciseAndSticky := by
  intro s t h
  rcases step_registers h with ⟨k, rest, hs, rfl⟩ | ⟨w, rest, hs, hc⟩ | ⟨-, -, -, -, hf⟩
  · exact .inr (.inl ⟨k, rest, hs, rfl⟩)
  · rcases issueCommand_next hc with
      rfl | ⟨h0, c, rfl⟩ | ⟨n, p, -, -, -, -, -, rfl⟩ | ⟨len, f, -, -, -, -, -, -, rfl⟩
    · exact .inl rfl
    · obtain ⟨hlo, hhi⟩ := code_range c
      exact .inr (.inr ⟨h0, hlo, hhi, w, rest, hs, rfl⟩)
    · exact .inl rfl
    · obtain ⟨-, -, hf, -⟩ := completeDecode_frame (Config.primitives s.cfg) len f { s with script := rest }
      exact .inl hf
  · exact .inl hf

/-- Settles O43: of the four things a command word can do (`issueCommand_next`), a completed ENCODE alone writes
`RES_LEN`, and a completed DECODE alone `RES_OFF` and `DEC_STATUS`. -/
theorem resultRegistersHaveOneWriter : Obligations.ResultRegistersHaveOneWriter := by
  intro s t h hnr
  rcases step_registers h with ⟨k, rest, hs, -⟩ | ⟨w, rest, hs, hc⟩ | ⟨-, hlen, hoff, hst, -⟩
  · exact absurd hs (hnr k rest)
  · rcases issueCommand_next hc with
      rfl | ⟨-, c, rfl⟩ | ⟨n, p, -, hd, -, -, -, rfl⟩ | ⟨len, f, -, hd, -, -, -, -, rfl⟩
    · exact ⟨fun hne => absurd rfl hne, fun hne => absurd ⟨rfl, rfl⟩ (not_and_or.2 hne)⟩
    · exact ⟨fun hne => absurd rfl hne, fun hne => absurd ⟨rfl, rfl⟩ (not_and_or.2 hne)⟩
    · exact ⟨fun _ => ⟨w, n, rest, hs, hd⟩, fun hne => absurd ⟨rfl, rfl⟩ (not_and_or.2 hne)⟩
    · obtain ⟨-, hlen, -⟩ := completeDecode_frame (Config.primitives s.cfg) len f { s with script := rest }
      exact ⟨fun hne => absurd hlen hne, fun _ => ⟨w, len, rest, hs, hd⟩⟩
  · exact ⟨fun hne => absurd hlen hne, fun hne => absurd ⟨hoff, hst⟩ (not_and_or.2 hne)⟩

/-! ## The invariant, operation by operation -/

/-- The invariant is about the block: the host's own fields may hold anything. -/
theorem agent_inv {s : State} (h : Inv s) (l : List HostAction) (d : Option HostDatum) :
    Inv { s with script := l, hostData := d } :=
  { h with }

/-- After a reset the invariant holds, whatever held before (rule R127). -/
theorem resetBlock_inv (k : Option SessionConfig) (s : State) : Inv (resetBlock k s) where
  pbufForm := .nil
  txbufForm := .nil
  rxbufForm := .nil
  pbufInside := nofun
  txbufInside := nofun
  rxbufInside := nofun
  resLenRange := nofun
  frameWritten := nofun
  counterFresh _ := rfl
  decodeResult := .inl ⟨rfl, rfl⟩
  faultLegal := Nat.zero_le 5

/-- A fault leaves a legal code (rule R109) and all else alone (rule R112). -/
theorem raiseFault_inv (c : FaultCause) {s : State} (h : Inv s) : Inv (raiseFault c s) :=
  { h with faultLegal := (code_range c).2 }

/-- Giving one byte a value takes none from another. -/
theorem read_put_ne_none {m : Memory} {i : Nat} (a : Nat) {v : Option Byte} (hv : v ≠ none) (hi : m.read i ≠ none) :
    (m.put a v).read i ≠ none := by
  by_cases h : i = a
  · subst h; rwa [read_put_same]
  · rwa [read_put_other m v h]

/-- A host write inside a buffer keeps the invariant. Only `RXBUF` may lose a byte (log entry 6), so the frame in
`TXBUF` stays written. -/
theorem setBuf_put_inv {s : State} {b : Buffer} {i : Nat} {v : Option Byte} (h : Inv s)
    (hi : i < SessionConfig.cap s.cfg b) (hv : v = none → b = .rxbuf) : Inv (s.setBuf b ((s.buf b).put i v)) := by
  cases b with
  | pbuf => exact { h with pbufForm := put_wf i v h.pbufForm, pbufInside := put_inside v hi h.pbufInside }
  | txbuf =>
    have hv' : v ≠ none := fun e => nomatch hv e
    exact { h with
      txbufForm := put_wf i v h.txbufForm
      txbufInside := put_inside v hi h.txbufInside
      frameWritten := fun r hr j hj => read_put_ne_none i hv' (h.frameWritten r hr j hj) }
  | rxbuf => exact { h with rxbufForm := put_wf i v h.rxbufForm, rxbufInside := put_inside v hi h.rxbufInside }

/-- Every byte of a range that has been written holds a value. -/
theorem read_writeRange_ne_none (m : Memory) {a i : Nat} {vs : List Byte} (h : a ≤ i ∧ i < a + vs.length) :
    (m.writeRange a vs).read i ≠ none := by
  rw [read_writeRange, if_pos h, ne_eq, List.getElem?_eq_none_iff]
  omega

/-- A completed ENCODE of a payload that fits keeps the invariant: `RES_LEN` is the length of the frame it writes. -/
theorem completeEncode_inv (P : Primitives) {n : Nat} {p : List Byte} {s : State} (h : Inv s) (hn : n ≤ s.cfg.pbufCap)
    (hl : p.length = n) : Inv (completeEncode P n p s) := by
  have hcap : s.cfg.pbufCap + 13 = s.cfg.encBufCap.val := pbufCap_add s.cfg
  have hmax : s.cfg.encBufCap.val ≤ 255 := s.cfg.encBufCap.property.2
  have hct : (uplinkCiphertext P s.cfg s.upcnt p).length = n := by rw [uplinkCiphertext_length, hl]
  have hframe : (uplinkFrame P s.cfg s.upcnt (uplinkCiphertext P s.cfg s.upcnt p)).length = 13 + n := by
    rw [uplinkFrame_length, hct]
  have hlen : ∀ r, (completeEncode P n p s).resLen = some r → r.toNat = 13 + n := by
    rintro r ⟨⟩
    exact uplinkLength_toNat (by omega)
  exact { h with
    pbufForm := writeRange_wf 0 _ h.pbufForm
    txbufForm := writeRange_wf 0 _ h.txbufForm
    pbufInside := writeRange_inside _ (by rw [hct, Nat.zero_add]; exact hn) h.pbufInside
    txbufInside := writeRange_inside _ (by rw [hframe, completeEncode_cfg]; omega) h.txbufInside
    resLenRange := fun r hr => by
      rw [hlen r hr, completeEncode_cfg]
      omega
    frameWritten := fun r hr i hi => by
      rw [hlen r hr] at hi
      exact read_writeRange_ne_none s.txbuf (by omega)
    counterFresh := nofun }

/-- A DECODE that reports `-1` gives its reason (rules R24, R25). -/
theorem reportNoPayload_inv {st : DecStatus} (hst : st ≠ .ok) {s : State} (h : Inv s) : Inv (reportNoPayload st s) :=
  { h with
    decodeResult := by
      cases st with
      | ok => exact absurd rfl hst
      | micMismatch => exact .inr (.inr ⟨.inl rfl, rfl⟩)
      | emptyPayload => exact .inr (.inr ⟨.inr rfl, rfl⟩) }

/-- A DECODE that succeeds writes inside `RXBUF` and reports an offset from 9 to 24 (rules R24, R94). -/
theorem reportPayload_inv (P : Primitives) {f : List Byte} {v : Byte} {pe : Nat} {s : State} (h : Inv s)
    (hoff : payloadOffset v ≤ pe) (hpe : pe ≤ s.cfg.decBufCap.val) : Inv (reportPayload P f (payloadOffset v) pe s) :=
  { h with
    rxbufForm := writeRange_wf _ _ h.rxbufForm
    rxbufInside := writeRange_inside _ (by simp [slice]; omega) h.rxbufInside
    decodeResult := by
      refine .inr (.inl ⟨rfl, _, rfl, ?_⟩)
      rw [offsetResult_toNat, payloadOffset_eq]
      omega }

/-- A completed DECODE of a frame that fits keeps the invariant. -/
theorem completeDecode_inv (P : Primitives) {len : Nat} (f : List Byte) {s : State} (h : Inv s)
    (hlen : len ≤ s.cfg.decBufCap.val) : Inv (completeDecode P len f s) := by
  rcases completeDecode_cases P len f s with ⟨-, e⟩ | ⟨-, -, e⟩ | ⟨-, hoff, e⟩
  · rw [e]; exact reportNoPayload_inv (by decide) h
  · rw [e]; exact reportNoPayload_inv (by decide) h
  · rw [e]; exact reportPayload_inv P h hoff.le (by omega)

/-- Every command word keeps the invariant: ignored, faulting or completing. -/
theorem issueCommand_inv {w : Half} {s t : State} (h : Inv s) (hc : issueCommand w s = .next t) : Inv t := by
  rcases issueCommand_next hc with
    rfl | ⟨-, c, rfl⟩ | ⟨n, p, -, -, hn, hl, -, rfl⟩ | ⟨len, f, -, -, -, hlen, -, -, rfl⟩
  · exact h
  · exact raiseFault_inv c h
  · exact completeEncode_inv _ h hn hl
  · exact completeDecode_inv _ f h hlen

/-- Every move of the host keeps the invariant. -/
theorem hostMove_inv {a : HostAction} {s t : State} (h : Inv s) (hm : hostMove a s = .next t) : Inv t := by
  rcases hostMove_cases hm with ⟨k, -, rfl⟩ | ⟨w, -, hc⟩ | ⟨b, i, v, hi, hv, -, rfl⟩ | ⟨v, -, rfl⟩ | ⟨-, rfl⟩
  · exact resetBlock_inv k s
  · exact issueCommand_inv h hc
  · exact setBuf_put_inv h hi hv
  · exact agent_inv h s.script v
  · exact h

/-- Settles O39: a step is the idle step or a move of the host, which keeps the invariant (`hostMove_inv`). -/
theorem everyStepKeepsTheInvariant : Obligations.EveryStepKeepsTheInvariant := by
  intro s t h hstep
  rcases step_cases hstep with ⟨-, rfl⟩ | ⟨a, rest, -, hm⟩
  · exact h
  · exact hostMove_inv (agent_inv h rest s.hostData) hm

/-- Settles O38: the reset state is what a reset leaves (`resetBlock_inv`). -/
theorem resetMeetsTheInvariant : Obligations.ResetMeetsTheInvariant :=
  resetBlock_inv none State.reset

/-- Settles O36: the registers by their values in `State.reset`, and each of the three buffers lists no byte. -/
theorem resetStateHasTheSpecsValues : Obligations.ResetStateHasTheSpecsValues := by
  refine ⟨rfl, rfl, rfl, rfl, rfl, fun b i => ?_⟩
  cases b with
  | pbuf => exact read_nil i
  | txbuf => exact read_nil i
  | rxbuf => exact read_nil i

end Sys2Proof.Machine
end

section
/-! PROOFS. The buffers: what a host access reads, writes and leaves alone (20_memory.md). -/

namespace Sys2Proof.Machine

/-! ## One byte of a buffer -/

/-- A buffer's contents are the block's: the host's own fields may hold anything. -/
@[simp] theorem buf_agent (s : State) (l : List HostAction) (d : Option HostDatum) (b : Buffer) :
    ({ s with script := l, hostData := d } : State).buf b = s.buf b := by
  cases b <;> rfl

/-- What a host read of a buffer byte returns does not depend on the host's own fields. -/
@[simp] theorem hostByte_agent (b : Buffer) (i : Nat) (s : State) (l : List HostAction) (d : Option HostDatum) :
    hostByte b i { s with script := l, hostData := d } = hostByte b i s := by
  rw [hostByte, hostByte, buf_agent]

theorem hostPut_inside {b : Buffer} {i : Nat} {s : State} (h : i < SessionConfig.cap s.cfg b) (v : Option Byte) :
    hostPut b i v s = s.setBuf b ((s.buf b).put i v) := by
  rw [hostPut, if_pos h]

theorem hostPut_outside {b : Buffer} {i : Nat} {s : State} (h : SessionConfig.cap s.cfg b ≤ i) (v : Option Byte) :
    hostPut b i v s = s := by
  rw [hostPut, if_neg (Nat.not_lt.2 h)]

@[simp] theorem hostPut_cfg (b : Buffer) (i : Nat) (v : Option Byte) (s : State) : (hostPut b i v s).cfg = s.cfg := by
  rcases hostPut_cases b i v s with ⟨-, e⟩ | ⟨-, e⟩
  · rw [e, setBuf_cfg]
  · rw [e]

/-- Replacing one byte of one buffer changes that byte alone (rules R42, R43). -/
theorem read_setBuf_put (s : State) (b b' : Buffer) (i j : Nat) (v : Option Byte) :
    ((s.setBuf b ((s.buf b).put i v)).buf b').read j = if b' = b ∧ j = i then v else (s.buf b').read j := by
  by_cases hb : b' = b
  · subst hb
    rw [setBuf_buf_same]
    by_cases hj : j = i
    · subst hj
      rw [if_pos ⟨rfl, rfl⟩, read_put_same]
    · rw [if_neg fun h => hj h.2, read_put_other _ v hj]
  · rw [if_neg fun h => hb h.1, setBuf_buf_other s b b' _ hb]

/-- A host write inside a buffer is what a read of that byte returns next. -/
theorem hostByte_hostPut_same {b : Buffer} {i : Nat} {s : State} (h : i < SessionConfig.cap s.cfg b)
    (v : Option Byte) : hostByte b i (hostPut b i v s) = v := by
  rw [hostByte, hostPut_cfg, if_pos h, hostPut_inside h, read_setBuf_put, if_pos ⟨rfl, rfl⟩]

/-- A host write, inside its buffer or outside, is not seen by a read of another byte. -/
theorem hostByte_hostPut_other {b b' : Buffer} {i j : Nat} (h : ¬ (b' = b ∧ j = i)) (v : Option Byte) (s : State) :
    hostByte b i (hostPut b' j v s) = hostByte b i s := by
  have hne : ¬ (b = b' ∧ i = j) := fun e => h ⟨e.1.symm, e.2.symm⟩
  rcases hostPut_cases b' j v s with ⟨-, e⟩ | ⟨-, e⟩
  · rw [e, hostByte, hostByte, setBuf_cfg, read_setBuf_put, if_neg hne]
  · rw [e]

/-- Settles O31, by the two kinds of access. A write is `hostPut`, which replaces one byte inside the buffer
(`read_setBuf_put`) and does nothing outside it (`hostPut_outside`); a read only notes what `hostByte` answers. -/
theorem hostBufferAccess : Obligations.HostBufferAccess := by
  intro s b i v rest
  refine ⟨fun hs => ⟨fun hi => ?_, fun hi => ?_⟩, fun hs => ?_⟩
  · have hput := hostPut_inside (s := { s with script := rest }) hi (some v)
    refine ⟨_, (step_cons hs).trans (congrArg Host.Outcome.next hput), fun b' j => ?_, ?_⟩
    · rw [read_setBuf_put, buf_agent]
    · simp
  · rw [step_cons hs, hostMove, hostPut_outside (s := { s with script := rest }) hi]
  · rw [step_cons hs, hostMove, hostByte_agent, hostByte, apply_ite (Option.map HostDatum.byte)]
    rfl

/-! ## A read after a write -/

/-- A script of one move does that move. -/
theorem runScript_single {a : HostAction} {s t : State} (hm : hostMove a { s with script := [] } = .next t) :
    runScript { s with script := [a] } = .next t := by
  rw [runScript_cons (s := { s with script := [a] }) rfl hm]
  exact runScript_nil (hostMove_script hm)

/-- The moves that rule R56 lets stand between a write of a byte and its read: reads, and writes of other bytes. -/
def HostAction.SparesByte (b : Buffer) (i : Nat) (a : HostAction) : Prop :=
  (∃ j, a = .readReg j) ∨ (∃ b' j, a = .readByte b' j) ∨ ∃ b' j u, a = .writeByte b' j u ∧ ¬ (b' = b ∧ j = i)

theorem hostMove_sparesByte {b : Buffer} {i : Nat} {a : HostAction} {s t : State} (ha : a.SparesByte b i)
    (hm : hostMove a s = .next t) : hostByte b i t = hostByte b i s := by
  rcases ha with ⟨j, rfl⟩ | ⟨b', j, rfl⟩ | ⟨b', j, u, rfl, hne⟩
  · cases hm; exact hostByte_agent ..
  · cases hm; exact hostByte_agent ..
  · cases hm; exact hostByte_hostPut_other hne (some u) s

/-- A script that spares a byte ends with the byte it started with. -/
theorem runScript_sparesByte (b : Buffer) (i : Nat) : ∀ s t, runScript s = .next t →
    (∀ a ∈ s.script, a.SparesByte b i) → hostByte b i t = hostByte b i s := by
  refine runScript_induction (fun _ _ _ => rfl) fun s a rest s' t hs hm hs' _ ih hall => ?_
  rw [hs] at hall
  obtain ⟨ha, hrest⟩ := List.forall_mem_cons.1 hall
  calc hostByte b i t = hostByte b i s' := ih (hs' ▸ hrest)
    _ = hostByte b i { s with script := rest } := hostMove_sparesByte ha hm
    _ = hostByte b i s := hostByte_agent ..

/-- A read at the end of a script that spares the byte returns what the byte held before the script. -/
theorem runScript_readByte {b : Buffer} {i : Nat} {v : Byte} {mid : List HostAction} {s : State}
    (hbyte : hostByte b i s = some v) (hmid : ∀ a ∈ mid, a.SparesByte b i) (hs : s.script = mid ++ [.readByte b i]) :
    ∃ t, runScript s = .next t ∧ t.hostData = some (.byte v) := by
  obtain ⟨m, hm⟩ := runScript_next { s with script := mid }
  have hkept : hostByte b i m = some v :=
    calc hostByte b i m = hostByte b i { s with script := mid } := runScript_sparesByte b i _ m hm hmid
      _ = hostByte b i s := hostByte_agent ..
      _ = some v := hbyte
  refine ⟨hostTakes ((hostByte b i m).map .byte) { m with script := [] }, ?_, ?_⟩
  · calc runScript s = runScript { s with script := mid ++ [.readByte b i] } := by rw [← hs]
      _ = runScript { m with script := [.readByte b i] } := runScript_append _ hm
      _ = _ := runScript_single (by rw [hostMove, hostByte_agent])
  · rw [hostTakes_hostData, hkept, Option.map_some]

/-- Settles O33: the byte holds the value written after the first move (`hostByte_hostPut_same`), and the rest of the
script spares it until the last move reads it (`runScript_readByte`). -/
theorem readReturnsTheLastWrite : Obligations.ReadReturnsTheLastWrite := by
  intro s b i v mid hi hmid hs
  have hbyte := hostByte_hostPut_same (s := { s with script := mid ++ [.readByte b i] }) hi (some v)
  rw [runScript_cons hs rfl]
  exact runScript_readByte hbyte hmid (hostMove_script (a := .writeByte b i v) rfl)

/-! ## Side effects and repetition -/

/-- What is observed is the block's: the host's own fields are no part of it (rule R139). -/
theorem observe_agent (s : State) (l : List HostAction) (d : Option HostDatum) :
    ({ s with script := l, hostData := d } : State).observe = s.observe := rfl

theorem write_write_same (m : Memory) (a : Nat) (v : Byte) : (m.write a v).write a v = m.write a v := by
  induction m with
  | nil => simp [Memory.write]
  | cons y m ih =>
    obtain ⟨b, w⟩ := y
    rcases Nat.lt_trichotomy a b with hlt | rfl | hgt
    · simp [Memory.write, hlt]
    · simp [Memory.write]
    · simp [Memory.write, Nat.lt_asymm hgt, Nat.ne_of_gt hgt, ih]

theorem setBuf_setBuf (s : State) (b : Buffer) (m m' : Memory) : (s.setBuf b m).setBuf b m' = s.setBuf b m' := by
  cases b <;> rfl

/-- Writing a byte twice leaves what writing it once leaves, inside the buffer and outside. -/
theorem hostPut_hostPut_same (b : Buffer) (i : Nat) (v : Byte) (s : State) :
    hostPut b i (some v) (hostPut b i (some v) s) = hostPut b i (some v) s := by
  rcases hostPut_cases b i (some v) s with ⟨hi, e⟩ | ⟨-, e⟩
  · rw [e, hostPut_inside (by rwa [setBuf_cfg]), setBuf_buf_same, setBuf_setBuf]
    exact congrArg (s.setBuf b) (write_write_same (s.buf b) i v)
  · rw [e, e]

/-- A move that changes nothing of the state it has just left does as much once as twice. -/
theorem runScript_repeat {a : HostAction} {s t : State} (hm : hostMove a { s with script := [] } = .next t)
    (hagain : hostMove a t = .next t) : runScript { s with script := [a, a] } = runScript { s with script := [a] } := by
  have hnil : { t with script := [] } = t := by rw [← show t.script = [] from hostMove_script hm]
  have hone : runScript { s with script := [a] } = .next t := runScript_single hm
  calc runScript { s with script := [a, a] } = runScript { t with script := [a] } := runScript_append [a] hone
    _ = .next t := runScript_single (by rw [hnil, hagain])
    _ = runScript { s with script := [a] } := hone.symm

/-- Settles O34: a read writes the host's own fields alone (`observe_agent`); a second read finds the byte the first one
found (`hostByte_agent`), and a second write leaves what the first one left (`hostPut_hostPut_same`). -/
theorem hostAccessesAreIdempotent : Obligations.HostAccessesAreIdempotent := by
  constructor
  · intro s t a rest ha hs ht
    rw [step_cons hs] at ht
    rcases ha with ⟨index, rfl⟩ | ⟨b, i, rfl⟩
    · cases ht; exact observe_agent s rest _
    · cases ht; exact observe_agent s rest _
  · rintro s a (⟨b, i, rfl⟩ | ⟨b, i, v, rfl⟩)
    · refine runScript_repeat rfl ?_
      rw [hostMove, hostTakes, hostByte_agent]
      rfl
    · refine runScript_repeat rfl ?_
      rw [hostMove, hostPut_hostPut_same]

end Sys2Proof.Machine
end

section
/-! PROOFS. The command words, the assembler, what a command reads, and the host's copy (30_encoding.md). -/

namespace Sys2Proof.Machine

/-! ## The decoder -/

theorem decode_of_opEncode {w : Half} (h : opField w = opEncode) : decode w = .ok (.encode (lenField w)) := by
  rw [decode, if_pos h]

theorem decode_of_opDecode {w : Half} (h : opField w = opDecode) : decode w = .ok (.decode (lenField w)) := by
  rw [decode, if_neg (by rw [h]; decide), if_pos h]

theorem decode_of_reserved {w : Half} (he : opField w ≠ opEncode) (hd : opField w ≠ opDecode) :
    decode w = .error (.reservedOp (opField w)) := by
  rw [decode, if_neg he, if_neg hd]

/-- A word stands for a command exactly when its two fields are the command's opcode and operand (rules R60, R61). -/
theorem decode_eq_ok_iff {w : Half} {i : Instr} : decode w = .ok i ↔ opField w = i.op ∧ lenField w = i.operand := by
  constructor
  · intro h
    by_cases he : opField w = opEncode
    · cases (decode_of_opEncode he).symm.trans h; exact ⟨he, rfl⟩
    · by_cases hd : opField w = opDecode
      · cases (decode_of_opDecode hd).symm.trans h; exact ⟨hd, rfl⟩
      · cases (decode_of_reserved he hd).symm.trans h
  · rintro ⟨ho, hl⟩
    cases i with
    | encode n => rw [decode_of_opEncode ho, hl]; rfl
    | decode len => rw [decode_of_opDecode ho, hl]; rfl

/-! ## The fields of a word -/

/-- `LEN` is a byte (rule R60). -/
theorem lenField_le (w : Half) : lenField w ≤ 255 := Nat.le_of_lt_succ (w.extractLsb' 0 8).isLt

/-- A word is its two fields: `CMD16` has no other bits (rules R60, R62). -/
theorem word_ext {w w' : Half} (ho : opField w = opField w') (hl : lenField w = lenField w') : w = w' := by
  have hsplit : ∀ v : Half, v = opField v ++ v.extractLsb' 0 8 := fun v =>
    BitVec.extractLsb'_eq_self.symm.trans (BitVec.extractLsb'_append_extractLsb'_eq_extractLsb' (len₁ := 8) rfl).symm
  rw [hsplit w, hsplit w', ho, BitVec.eq_of_toNat_eq hl]

theorem wellFormed_iff (i : Instr) : i.wellFormed = true ↔ i.operand ≤ 255 := by
  cases i with
  | encode n => exact decide_eq_true_iff
  | decode len => exact decide_eq_true_iff

theorem encode_fields {i : Instr} (h : i.wellFormed = true) :
    opField (encode i) = i.op ∧ lenField (encode i) = i.operand := by
  cases i with
  | encode n => exact Laws.WordFields.encode n h
  | decode len => exact Laws.WordFields.decode len h

/-- Settles O3. Both directions compare fields: those of a well-formed command's word are its opcode and operand
(`encode_fields`), which is what it means to decode to it (`decode_eq_ok_iff`); and a word has nothing but its fields
(`word_ext`). -/
theorem decodeAndEncodeAgree : Obligations.DecodeAndEncodeAgree := by
  refine ⟨fun i h => decode_eq_ok_iff.2 (encode_fields h), fun w i hd => ?_⟩
  obtain ⟨ho, hl⟩ := decode_eq_ok_iff.1 hd
  have hwf : i.wellFormed = true := (wellFormed_iff i).2 (hl ▸ lenField_le w)
  obtain ⟨ho', hl'⟩ := encode_fields hwf
  exact ⟨hwf, word_ext (ho'.trans ho.symm) (hl'.trans hl.symm)⟩

/-- Settles O2, by cases on the opcode as `decode` has them, the fields of `op ++ len` being the two bytes
(`append_fields`). -/
theorem wordsDecodeByTheirTwoFields : Obligations.WordsDecodeByTheirTwoFields := by
  intro op len
  obtain ⟨ho, hl⟩ := append_fields op len
  by_cases he : op = 0x01#8
  · rw [if_pos he, decode_of_opEncode (ho.trans he), hl]
  · rw [if_neg he]
    by_cases hd : op = 0x02#8
    · rw [if_pos hd, decode_of_opDecode (ho.trans hd), hl]
    · rw [if_neg hd, decode_of_reserved (ho.symm ▸ he) (ho.symm ▸ hd), ho]

/-- Settles O1: each word is its opcode byte above its length byte, so it decodes as O2 says. -/
theorem specCommandWordsDecode : Obligations.SpecCommandWordsDecode :=
  ⟨wordsDecodeByTheirTwoFields 0x01#8 0x03#8, wordsDecodeByTheirTwoFields 0x01#8 0x00#8,
    wordsDecodeByTheirTwoFields 0x01#8 0x44#8, wordsDecodeByTheirTwoFields 0x02#8 0x10#8,
    wordsDecodeByTheirTwoFields 0x02#8 0x41#8, wordsDecodeByTheirTwoFields 0x00#8 0x00#8,
    wordsDecodeByTheirTwoFields 0x03#8 0x00#8, wordsDecodeByTheirTwoFields 0xFF#8 0x00#8⟩

/-- Settles O5: the step is the script's first move (`step_cons`), and a write to index 0 issues its word
(`issueCommand_ok`). -/
theorem stepRunsTheIssuedCommand : Obligations.StepRunsTheIssuedCommand := by
  intro s w rest i hs hd
  calc step s = hostMove (.writeReg 0 w) { s with script := rest } := step_cons hs
    _ = issueCommand w { s with script := rest } := rfl
    _ = exec i { s with script := rest } := issueCommand_ok hd _

/-! ## The assembler: numerals -/

/-- The digits that `Nat.toDigits` writes are the digits that the assembler reads. -/
theorem digitValue_digitChar : ∀ b < 17, ∀ d < b, digitValue b d.digitChar = some d := by decide

theorem digitsValue_append (b : Nat) (cs ds : List Char) (acc : Nat) :
    digitsValue b (cs ++ ds) acc = (digitsValue b cs acc).bind (digitsValue b ds) := by
  induction cs generalizing acc with
  | nil => rfl
  | cons c cs ih =>
    rw [List.cons_append, digitsValue, digitsValue]
    cases digitValue b c with
    | none => rfl
    | some v => exact ih _

/-- Reading back a number written in a base from 2 to 16, by induction on the number as `Nat.toDigits` recurses: its
last digit stands behind the digits of its quotient. -/
theorem digitsValue_toDigits {b : Nat} (hb : 1 < b) (hb' : b < 17) (n : Nat) :
    digitsValue b (Nat.toDigits b n) 0 = some n := by
  have hdigit : ∀ d < b, ∀ acc, digitsValue b [d.digitChar] acc = some (acc * b + d) := fun d hd acc => by
    rw [digitsValue, digitValue_digitChar b hb' d hd]; rfl
  induction n using Nat.strongRecOn with
  | ind n ih =>
    rcases Nat.lt_or_ge n b with hn | hn
    · rw [Nat.toDigits_of_lt_base hn, hdigit n hn, Nat.zero_mul, Nat.zero_add]
    · rw [Nat.toDigits_of_base_le hb hn, digitsValue_append, ih (n / b) (Nat.div_lt_self (by omega) hb),
        Option.bind_some, hdigit _ (Nat.mod_lt n (by omega)), Nat.div_add_mod']

theorem numeral_toDigits {b : Nat} (hb : 1 < b) (hb' : b < 17) (n : Nat) : numeral b (Nat.toDigits b n) = some n := by
  rw [← digitsValue_toDigits hb hb' n]
  cases h : Nat.toDigits b n with
  | nil => exact absurd h Nat.toDigits_ne_nil
  | cons c cs => rfl

/-- A written number has no character but digits. -/
theorem mem_toDigits {b n : Nat} {c : Char} (hb : 1 < b) (h : c ∈ Nat.toDigits b n) : ∃ d : Nat, c = d.digitChar := by
  induction n using Nat.strongRecOn with
  | ind n ih =>
    rcases Nat.lt_or_ge n b with hn | hn
    · rw [Nat.toDigits_of_lt_base hn] at h
      exact ⟨n, List.mem_singleton.1 h⟩
    · rw [Nat.toDigits_of_base_le hb hn, List.mem_append] at h
      rcases h with h | h
      · exact ih _ (Nat.div_lt_self (by omega) hb) h
      · exact ⟨n % b, List.mem_singleton.1 h⟩

theorem space_notMem_toDigits {b : Nat} (hb : 1 < b) (n : Nat) : ' ' ∉ Nat.toDigits b n := fun h => by
  obtain ⟨d, hd⟩ := mem_toDigits hb h
  exact Nat.digitChar_ne ' ' (by decide) hd.symm

theorem operandValue_decimal (n : Nat) : operandValue (Nat.toDigits 10 n) = some n := by
  have hx : ∀ cs, Nat.toDigits 10 n ≠ '0' :: 'x' :: cs := fun cs h => by
    obtain ⟨d, hd⟩ := mem_toDigits (b := 10) (n := n) (c := 'x') (by decide) (by simp [h])
    exact Nat.digitChar_ne 'x' (by decide) hd.symm
  rw [operandValue]
  · exact numeral_toDigits (by decide) (by decide) n
  · exact hx

theorem operandValue_hexadecimal (n : Nat) : operandValue ('0' :: 'x' :: Nat.toDigits 16 n) = some n :=
  numeral_toDigits (by decide) (by decide) n

/-! ## The assembler: lines -/

/-- A line is its mnemonic, up to the first space, and its operand. -/
theorem mnemonic_of_line {name : List Char} (h : ' ' ∉ name) (operand : List Char) :
    (name ++ ' ' :: operand).takeWhile (· != ' ') = name
      ∧ (name ++ ' ' :: operand).dropWhile (· != ' ') = ' ' :: operand := by
  have hne : ∀ c ∈ name, (c != ' ') = true := fun c hc => bne_iff_ne.2 fun e => h (e ▸ hc)
  constructor
  · rw [List.takeWhile_append_of_pos hne, List.takeWhile_cons_of_neg (by decide), List.append_nil]
  · rw [List.dropWhile_append_of_pos hne, List.dropWhile_cons_of_neg (by decide)]

theorem assemble_unknown {name : List Char} (h : ' ' ∉ name) (hm : mnemonicOf name = none) (operand : List Char) :
    assemble (name ++ ' ' :: operand) = .error .unknownMnemonic := by
  rw [assemble, (mnemonic_of_line h operand).1, hm]

theorem assemble_known {name operand : List Char} {mk : Nat → Instr} {n : Nat} (h : ' ' ∉ name)
    (hm : mnemonicOf name = some mk) (hsp : ' ' ∉ operand) (hv : operandValue operand = some n) :
    assemble (name ++ ' ' :: operand)
      = if (mk n).operand ≤ 255 then .ok (mk n) else .error .operandOutOfRange := by
  have hdrop : (' ' :: operand).dropWhile (· == ' ') = operand := by
    cases operand with
    | nil => rfl
    | cons c cs =>
      have hc : c ≠ ' ' := fun e => hsp (e ▸ List.mem_cons_self)
      rw [List.dropWhile_cons_of_pos (by decide), List.dropWhile_cons_of_neg (by simpa using hc)]
  obtain ⟨hname, hrest⟩ := mnemonic_of_line h operand
  rw [assemble, hname, hm, hrest, hdrop]
  simp only [hv, wellFormed_iff]

/-- Both forms of an operand, decimal and `0x`-prefixed, assemble alike (rule R77). -/
theorem assemble_number {name : List Char} {mk : Nat → Instr} (h : ' ' ∉ name) (hm : mnemonicOf name = some mk)
    (hop : ∀ n, (mk n).operand = n) (n : Nat) :
    assemble (name ++ ' ' :: Nat.toDigits 10 n) = (if n ≤ 255 then .ok (mk n) else .error .operandOutOfRange)
      ∧ assemble (name ++ ' ' :: '0' :: 'x' :: Nat.toDigits 16 n)
        = (if n ≤ 255 then .ok (mk n) else .error .operandOutOfRange) := by
  have hspace : ' ' ∉ '0' :: 'x' :: Nat.toDigits 16 n := by
    simpa using space_notMem_toDigits (b := 16) (by decide) n
  have hdec := assemble_known h hm (space_notMem_toDigits (by decide) n) (operandValue_decimal n)
  have hhex := assemble_known h hm hspace (operandValue_hexadecimal n)
  rw [hop] at hdec hhex
  exact ⟨hdec, hhex⟩

/-- Changing capitals neither makes nor removes a space. -/
theorem space_notMem_of_toLower {name word : List Char} (h : name.map Char.toLower = word) (hw : ' ' ∉ word) :
    ' ' ∉ name := fun hs => hw (h ▸ List.mem_map_of_mem (f := Char.toLower) hs)

/-- Settles O4. The two mnemonics assemble their numbers by one argument (`assemble_number`), any other name is unknown
(`assemble_unknown`), and the words are `commandWord` with the opcodes written out. -/
theorem assemblerFollowsItsRule : Obligations.AssemblerFollowsItsRule := by
  intro name n
  refine ⟨fun h => ?_, fun h => ?_, fun hsp he hd operand => ?_, fun _ => ⟨rfl, rfl⟩⟩
  · have hm : mnemonicOf name = some .encode := if_pos h
    exact assemble_number (space_notMem_of_toLower h (by decide)) hm (fun _ => rfl) n
  · have hm : mnemonicOf name = some .decode := by rw [mnemonicOf, if_neg (by rw [h]; decide), if_pos h]
    exact assemble_number (space_notMem_of_toLower h (by decide)) hm (fun _ => rfl) n
  · have hm : mnemonicOf name = none := by rw [mnemonicOf, if_neg he, if_neg hd]
    exact assemble_unknown hsp hm operand

/-! ## What DECODE reads -/

/-- Two blocks agree on all that a `DECODE len` reads (rule R64, with the capacity that rule R96 compares). -/
structure AgreeForDecode (len : Nat) (s s' : State) : Prop where
  cap : s.cfg.decBufCap = s'.cfg.decBufCap
  direction : s.cfg.decodeDirection = s'.cfg.decodeDirection
  nwkSKey : s.cfg.nwkSKey = s'.cfg.nwkSKey
  appSKey : s.cfg.appSKey = s'.cfg.appSKey
  frame : ∀ i < len, s.rxbuf.read i = s'.rxbuf.read i

/-- Where two buffers agree they agree after the same string is written to both. -/
theorem read_writeRange_congr {m m' : Memory} {i : Nat} (h : m.read i = m'.read i) (a : Nat) (vs : List Byte) :
    (m.writeRange a vs).read i = (m'.writeRange a vs).read i := by
  rw [read_writeRange, read_writeRange, h]

/-- A completed DECODE of the same frame reports the same and leaves the same frame. -/
theorem completeDecode_congr (P : Primitives) {len : Nat} (f : List Byte) {s s' : State} (h : AgreeForDecode len s s') :
    (completeDecode P len f s).resOff = (completeDecode P len f s').resOff
      ∧ (completeDecode P len f s).decStatus = (completeDecode P len f s').decStatus
      ∧ ∀ i < len, (completeDecode P len f s).rxbuf.read i = (completeDecode P len f s').rxbuf.read i := by
  have hmic : micMatches P s.cfg f (payloadEnd len) = micMatches P s'.cfg f (payloadEnd len) := by
    rw [micMatches, micMatches, h.direction, h.nwkSKey]
  rw [completeDecode, completeDecode, hmic]
  split
  · dsimp only
    split
    · exact ⟨rfl, rfl, h.frame⟩
    · refine ⟨rfl, rfl, fun i hi => ?_⟩
      rw [reportPayload_rxbuf, reportPayload_rxbuf, h.direction, h.appSKey]
      exact read_writeRange_congr (h.frame i hi) _ _
  · exact ⟨rfl, rfl, h.frame⟩

/-- Two ends of a `DECODE len` that show the same: the fault, the frame, and of a completed one the results. -/
def DecodedAlike (len : Nat) (t t' : State) : Prop :=
  t.faultCause = t'.faultCause ∧ (∀ i < len, t.rxbuf.read i = t'.rxbuf.read i)
    ∧ (t.faultCause = 0#8 → t.resOff = t'.resOff ∧ t.decStatus = t'.decStatus)

/-- No cause has the code 0, which is `NONE` (rule R109). -/
theorem code_ne_zero (c : FaultCause) : c.code ≠ 0#8 := fun h => absurd (code_range c).1 (by rw [h]; decide)

theorem raiseFault_decodedAlike (c : FaultCause) {len : Nat} {s s' : State} (h : AgreeForDecode len s s') :
    DecodedAlike len (raiseFault c s) (raiseFault c s') :=
  ⟨rfl, h.frame, fun h0 => absurd h0 (code_ne_zero c)⟩

theorem completeDecode_decodedAlike (P : Primitives) {len : Nat} (f : List Byte) {s s' : State}
    (h : AgreeForDecode len s s') (hfc : s.faultCause = s'.faultCause) :
    DecodedAlike len (completeDecode P len f s) (completeDecode P len f s') := by
  obtain ⟨hoff, hst, hread⟩ := completeDecode_congr P f h
  obtain ⟨-, -, hkeep, -⟩ := completeDecode_frame P len f s
  obtain ⟨-, -, hkeep', -⟩ := completeDecode_frame P len f s'
  exact ⟨by rw [hkeep, hkeep', hfc], hread, fun _ => ⟨hoff, hst⟩⟩

/-- Each check of a DECODE on the first block comes out the same on the second; where both complete, the frame they
read is one string. -/
theorem decodeWith_decodedAlike (P : Primitives) {len : Nat} {s s' : State} (h0 : s.faultCause = 0#8)
    (h0' : s'.faultCause = 0#8) (h : AgreeForDecode len s s') :
    ∃ t t', decodeWith P len s = .next t ∧ decodeWith P len s' = .next t' ∧ DecodedAlike len t t' := by
  rcases decodeWith_cases P len s with
    ⟨hx, -⟩ | ⟨-, h8, e⟩ | ⟨-, hl, e⟩ | ⟨-, h8, hl, ⟨i, hi, hr⟩, e⟩ | ⟨f, -, h8, hl, hf, hh, e⟩
  · exact absurd h0 hx
  · exact ⟨_, _, e, decodeWith_tooShort P h0' h8, raiseFault_decodedAlike _ h⟩
  · exact ⟨_, _, e, decodeWith_tooLong P h0' (h.cap ▸ hl), raiseFault_decodedAlike _ h⟩
  · have hr' : s'.rxbuf.read i = none := (h.frame i hi).symm.trans hr
    exact ⟨_, _, e, decodeWith_unwritten P h0' h8 (h.cap ▸ hl) ⟨i, hi, hr'⟩, raiseFault_decodedAlike _ h⟩
  · have hh' : s'.rxbuf.holds 0 f := fun i hi => by
      rw [← hh i hi, Nat.zero_add, h.frame i (hf ▸ hi)]
    exact ⟨_, _, e, decodeWith_completes P h0' h8 (h.cap ▸ hl) hf hh',
      completeDecode_decodedAlike P f h (h0.trans h0'.symm)⟩

/-- Settles O24: the two blocks agree on all that a DECODE reads, so its two ends show the same
(`decodeWith_decodedAlike`). -/
theorem decodeSeesOnlyItsFrame : Obligations.DecodeSeesOnlyItsFrame := by
  intro P s s' t t' len h0 h0' hcap hdir hnwk happ hrx ht ht'
  obtain ⟨u, u', hu, hu', halike⟩ := decodeWith_decodedAlike P h0 h0' ⟨hcap, hdir, hnwk, happ, hrx⟩
  cases ht.symm.trans hu
  cases ht'.symm.trans hu'
  exact halike

/-! ## The host's copy -/

/-- A copy of one byte writes `RXBUF` alone. -/
theorem hostCopy_frame (i j : Nat) (s : State) : hostCopy i j s = { s with rxbuf := (hostCopy i j s).rxbuf } := by
  rcases hostPut_cases .rxbuf j (hostByte .txbuf i s) s with ⟨-, e⟩ | ⟨-, e⟩
  · rw [hostCopy, e]; rfl
  · rw [hostCopy, e]

/-- A copy of one byte changes that byte alone, and only inside `RXBUF` (rules R42, R78). -/
theorem read_hostCopy (i j k : Nat) (s : State) :
    (hostCopy i j s).rxbuf.read k
      = if k = j ∧ j < s.cfg.decBufCap.val then hostByte .txbuf i s else s.rxbuf.read k := by
  rcases hostPut_cases .rxbuf j (hostByte .txbuf i s) s with ⟨hj, e⟩ | ⟨hj, e⟩
  · have hread := read_setBuf_put s .rxbuf .rxbuf j k (hostByte .txbuf i s)
    simp only [true_and] at hread
    have hin : k = j ∧ j < s.cfg.decBufCap.val ↔ k = j := and_iff_left hj
    rw [hostCopy, e, if_congr hin rfl rfl]
    exact hread
  · rw [hostCopy, e, if_neg fun h => Nat.not_lt.2 hj h.2]

/-- A copy of a frame writes `RXBUF` alone. -/
theorem hostCopyFrame_frame (n : Nat) (s : State) :
    hostCopyFrame n s = { s with rxbuf := (hostCopyFrame n s).rxbuf } := by
  induction n with
  | zero => rfl
  | succ n ih =>
    rw [hostCopyFrame, hostCopy_frame]
    exact congrArg (fun m : State => { m with rxbuf := (hostCopy n n (hostCopyFrame n s)).rxbuf }) ih

/-- What a copy of a frame leaves in `RXBUF`. -/
theorem read_hostCopyFrame (n k : Nat) (s : State) :
    (hostCopyFrame n s).rxbuf.read k
      = if k < n ∧ k < s.cfg.decBufCap.val then hostByte .txbuf k s else s.rxbuf.read k := by
  induction n with
  | zero => rfl
  | succ n ih =>
    have hframe := hostCopyFrame_frame n s
    have hcfg : (hostCopyFrame n s).cfg = s.cfg := by rw [hframe]
    have hbyte : hostByte .txbuf n (hostCopyFrame n s) = hostByte .txbuf n s := by rw [hframe]; rfl
    rw [hostCopyFrame, read_hostCopy, hcfg, hbyte, ih]
    by_cases hk : k = n
    · subst hk; simp
    · have hlt : k < n + 1 ↔ k < n := by omega
      simp only [hk, hlt, false_and, if_false]

/-- The script of a copy does the copy of the frame at once (rule R78), by induction on the length: the last byte is
the last move. -/
theorem runScript_scriptCopy (n : Nat) (s : State) :
    runScript { s with script := scriptCopy n } = .next { hostCopyFrame n s with script := [] } := by
  induction n with
  | zero => exact runScript_nil rfl
  | succ n ih =>
    have hlast : scriptCopy (n + 1) = scriptCopy n ++ [.copyByte n n] := by
      rw [scriptCopy, scriptCopy, List.range_succ, List.map_append, List.map_singleton]
    obtain ⟨d, hmove, hd⟩ :=
      hostMove_agent (a := .copyByte n n) (s := hostCopyFrame n s) rfl [] (hostCopyFrame n s).hostData
    cases hd rfl
    rw [hlast, runScript_append _ ih]
    exact runScript_single (s := { hostCopyFrame n s with script := [] }) hmove

/-- Settles O32: the script does `hostCopyFrame` (`runScript_scriptCopy`), which writes `RXBUF` alone
(`hostCopyFrame_frame`) and leaves there what `read_hostCopyFrame` says. -/
theorem copyMovesTheTransmitBytes : Obligations.CopyMovesTheTransmitBytes := by
  intro s n hs
  refine ⟨{ hostCopyFrame n s with script := [] }, ?_, fun i hi hcap => ?_, fun i hi => ?_, ?_⟩
  · rw [← runScript_scriptCopy, ← hs]
  · exact (read_hostCopyFrame n i s).trans (if_pos ⟨hi, hcap⟩)
  · exact (read_hostCopyFrame n i s).trans (if_neg (by omega))
  · rw [hostCopyFrame_frame]
    exact ⟨rfl, rfl, rfl, rfl, rfl, rfl, rfl, rfl, rfl⟩

end Sys2Proof.Machine
end

section
/-! PROOFS. ENCODE: its checks, the frame it writes, what it leaves alone, and its counter over a run (40_encode.md). -/

namespace Sys2Proof.Machine

/-! ## A byte string in a buffer -/

theorem holds_nil (m : Memory) (a : Nat) : m.holds a [] := nofun

/-- A buffer holds a string exactly when it holds its first byte and then the others. -/
theorem holds_cons {m : Memory} {a : Nat} {v : Byte} {vs : List Byte} :
    m.holds a (v :: vs) ↔ m.read a = some v ∧ m.holds (a + 1) vs := by
  have hhead : m.holds a [v] ↔ m.read a = some v := by simp [Memory.holds]
  rw [← List.singleton_append, holds_append, hhead, List.length_singleton]

/-! ## When an ENCODE completes -/

/-- An admitted ENCODE whose payload is written completes: `p` is the payload it reads. -/
theorem exec_encode_of_written {s : State} {n : Nat} (h0 : s.faultCause = 0#8) (hn : n ≤ s.cfg.pbufCap)
    (hw : ∀ i < n, s.pbuf.read i ≠ none) :
    ∃ p, p.length = n ∧ exec (.encode n) s = .next (completeEncode (Config.primitives s.cfg) n p s) := by
  obtain ⟨p, hl, hp⟩ := holds_of_written (m := s.pbuf) (a := 0) (by simpa using hw)
  exact ⟨p, hl, encodeWith_completes _ h0 hn hl hp⟩

/-- The converse: an ENCODE that leaves `FAULT_CAUSE` 0 found it 0 and has completed. -/
theorem exec_encode_completed {n : Nat} {s t : State} (h : exec (.encode n) s = .next t) (h0 : t.faultCause = 0#8) :
    s.faultCause = 0#8 ∧ ∃ p, t = completeEncode (Config.primitives s.cfg) n p s := by
  rcases encodeWith_cases (Config.primitives s.cfg) n s with
    ⟨hx, e⟩ | ⟨-, -, e⟩ | ⟨-, -, -, e⟩ | ⟨p, hs, -, -, -, e⟩
  · cases h.symm.trans e; exact absurd h0 hx
  · cases h.symm.trans e; exact absurd h0 (code_ne_zero .encOverflow)
  · cases h.symm.trans e; exact absurd h0 (code_ne_zero .unwrittenRead)
  · cases h.symm.trans e; exact ⟨hs, p, rfl⟩

/-! ## The counter over a run -/

/-- A move that issues no ENCODE is not counted. -/
theorem encodesIssued_other {a : HostAction} (h : a.issuesEncode = false) : encodesIssued [a] = 0 := by
  simp [encodesIssued, h]

/-- A command word is counted exactly when it decodes to an ENCODE. -/
theorem issuesEncode_cmd (w : Half) :
    (HostAction.writeReg 0 w).issuesEncode = true ↔ ∃ n, decode w = .ok (.encode n) := by
  have hcmd : Reg.ofIndex 0 = some .cmd := rfl
  simp only [HostAction.issuesEncode, hcmd]
  split <;> simp_all

theorem issueCommand_halted (w : Half) {s : State} (h : s.faultCause ≠ 0#8) : issueCommand w s = .next s := by
  rcases issueCommand_cases w s with ⟨-, e⟩ | ⟨h0, -⟩ | ⟨-, h0, -⟩
  · exact e
  · exact absurd h0 h
  · exact absurd h0 h

/-- A command word that is no ENCODE leaves `UPCNT` alone (rule R19). -/
theorem issueCommand_upcnt {w : Half} {s t : State} (hd : ¬ ∃ n, decode w = .ok (.encode n))
    (hc : issueCommand w s = .next t) : t.upcnt = s.upcnt := by
  rcases issueCommand_next hc with rfl | ⟨-, c, rfl⟩ | ⟨n, p, -, he, -⟩ | ⟨len, f, -, -, -, -, -, -, rfl⟩
  · rfl
  · rfl
  · exact absurd ⟨n, he⟩ hd
  · exact (completeDecode_frame _ len f s).1

/-- A command word after which `FAULT_CAUSE` is 0 found it 0, and has advanced `UPCNT` by 1 if it is an ENCODE, else not
at all. -/
theorem issueCommand_counter {w : Half} {s t : State} (hc : issueCommand w s = .next t) (h0 : t.faultCause = 0#8) :
    s.faultCause = 0#8 ∧ t.upcnt = s.upcnt + BitVec.ofNat 16 (encodesIssued [.writeReg 0 w]) := by
  by_cases hd : ∃ n, decode w = .ok (.encode n)
  · obtain ⟨n, hn⟩ := hd
    rw [issueCommand_ok hn] at hc
    obtain ⟨hs, p, rfl⟩ := exec_encode_completed hc h0
    have hone : encodesIssued [.writeReg 0 w] = 1 := by simp [encodesIssued, (issuesEncode_cmd w).2 ⟨n, hn⟩]
    exact ⟨hs, by rw [hone]; rfl⟩
  · have hs : s.faultCause = 0#8 := by
      by_contra hx
      cases hc.symm.trans (issueCommand_halted w hx)
      exact hx h0
    have hzero := encodesIssued_other (Bool.eq_false_iff.2 fun h => hd ((issuesEncode_cmd w).1 h))
    exact ⟨hs, by rw [issueCommand_upcnt hd hc, hzero]; simp⟩

/-- Any move but a reset after which `FAULT_CAUSE` is 0 found it 0, and has advanced `UPCNT` by the ENCODEs it issues,
one or none. -/
theorem hostMove_counter {a : HostAction} {s t : State} (ha : a.noReset = true) (hm : hostMove a s = .next t)
    (h0 : t.faultCause = 0#8) :
    s.faultCause = 0#8 ∧ t.upcnt = s.upcnt + BitVec.ofNat 16 (encodesIssued [a]) := by
  rcases hostMove_cases hm with ⟨k, rfl, -⟩ | ⟨w, rfl, hc⟩ | ⟨b, i, v, -, -, he, rfl⟩ | ⟨v, he, rfl⟩ | ⟨he, rfl⟩
  · cases ha
  · exact issueCommand_counter hc h0
  · rw [setBuf_faultCause] at h0
    exact ⟨h0, by simp [encodesIssued_other he]⟩
  · exact ⟨h0, by simp [encodesIssued_other he]⟩
  · exact ⟨h0, by simp [encodesIssued_other he]⟩

/-- A script without a reset that ends with `FAULT_CAUSE` 0 started with it 0 and has advanced `UPCNT` once for each
ENCODE. That the fault is absent at the start too is what carries the induction back over the script. -/
theorem runScript_counter : ∀ s t, runScript s = .next t → (∀ a ∈ s.script, a.noReset = true) → t.faultCause = 0#8 →
    s.faultCause = 0#8 ∧ t.upcnt = s.upcnt + BitVec.ofNat 16 (encodesIssued s.script) := by
  refine runScript_induction (fun s hs _ h0 => ⟨h0, by simp [hs, encodesIssued]⟩)
    fun s a rest s' t hs hm hs' _ ih hall h0 => ?_
  rw [hs] at hall
  obtain ⟨ha, hrest⟩ := List.forall_mem_cons.1 hall
  obtain ⟨h0', htail⟩ := ih (hs' ▸ hrest) h0
  obtain ⟨hs0, hhead⟩ := hostMove_counter ha hm h0'
  have hsum : encodesIssued s.script = encodesIssued [a] + encodesIssued rest := by
    rw [hs, ← List.singleton_append]
    exact List.countP_append
  exact ⟨hs0, by rw [htail, hhead, hs', hsum, BitVec.ofNat_add, BitVec.add_assoc]⟩

/-- Settles O17. The first part is `runScript_counter`, by induction on the script; a run that starts with its only
reset counts from 0. -/
theorem counterCountsTheEncodesOfARun : Obligations.CounterCountsTheEncodesOfARun := by
  have hfree : ∀ s t : State, (∀ a ∈ s.script, a.noReset = true) → runScript s = .next t → t.faultCause = 0#8 →
      t.upcnt.toNat = (s.upcnt.toNat + encodesIssued s.script) % 2 ^ 16 := fun s t hall hrun h0 => by
    rw [(runScript_counter s t hrun hall h0).2]
    simp
  refine ⟨hfree, fun s k rest hs hall hend => ?_⟩
  obtain ⟨-, ⟨t, hrun, h0⟩, -⟩ := hend
  have hrun' : runScript (resetBlock k { s with script := rest }) = .next t := (runScript_cons hs rfl).symm.trans hrun
  have hcount := hfree _ t hall hrun' h0
  rw [resetBlock_upcnt, resetBlock_script] at hcount
  exact ⟨t, hrun, by simpa using hcount⟩

/-! ## The checks -/

/-- Settles O10, by the check for a written payload: `encodeWith_unwritten` where it fails, `exec_encode_of_written`
where it passes. -/
theorem encodeNeedsAWrittenPayload : Obligations.EncodeNeedsAWrittenPayload := by
  intro s n h0 hn
  refine ⟨encodeWith_unwritten _ h0 hn, fun hw => ?_⟩
  obtain ⟨p, -, he⟩ := exec_encode_of_written h0 hn hw
  exact ⟨_, he, h0⟩

/-- Settles O9: the two bounds are one (`pbufCap_add`), and the empty payload always fits and is always written. -/
theorem encodeFaultsOnOverflow : Obligations.EncodeFaultsOnOverflow := by
  intro s n h0
  refine ⟨?_, encodeWith_overflow _ h0, ?_⟩
  · have := pbufCap_add s.cfg
    omega
  · obtain ⟨p, -, he⟩ := exec_encode_of_written h0 (Nat.zero_le _) nofun
    exact ⟨_, he, h0⟩

/-! ## The frame -/

/-- The three parts of the frame a completed ENCODE leaves in `TXBUF`: the bytes the MIC covers, which are the header
and the ciphertext, and the MIC after them (rules R83, R88, R89). -/
theorem completeEncode_frame (P : Primitives) (n : Nat) (p : List Byte) (s : State) {pre : List Byte}
    (hpre : pre = uplinkHeader s.cfg s.upcnt ++ uplinkCiphertext P s.cfg s.upcnt p) :
    (completeEncode P n p s).txbuf.holds 0 (uplinkHeader s.cfg s.upcnt)
      ∧ (completeEncode P n p s).txbuf.holds 9 (uplinkCiphertext P s.cfg s.upcnt p)
      ∧ (completeEncode P n p s).txbuf.holds 0 pre
      ∧ (completeEncode P n p s).txbuf.holds (9 + p.length) (micBytes P pre s.upcnt .uplink s.cfg.nwkSKey) := by
  subst hpre
  have hframe := holds_writeRange s.txbuf 0 (uplinkFrame P s.cfg s.upcnt (uplinkCiphertext P s.cfg s.upcnt p))
  rw [← completeEncode_txbuf P n, uplinkFrame, appendMic] at hframe
  obtain ⟨hpre, hmic⟩ := holds_append.1 hframe
  obtain ⟨hheader, hct⟩ := holds_append.1 hpre
  simp only [List.length_append, uplinkHeader_length, uplinkCiphertext_length, Nat.zero_add] at hmic hct
  exact ⟨hheader, hct, hpre, hmic⟩

/-- Settles O11: the header part of the frame (`completeEncode_frame`), byte by byte. -/
theorem encodeWritesTheHeader : Obligations.EncodeWritesTheHeader := by
  intro s n h0 hn hw
  obtain ⟨p, -, he⟩ := exec_encode_of_written h0 hn hw
  obtain ⟨hheader, -⟩ := completeEncode_frame (Config.primitives s.cfg) n p s rfl
  rw [uplinkHeader_eq] at hheader
  simp only [holds_cons, holds_nil, and_true] at hheader
  exact ⟨_, he, hheader⟩

/-- The ciphertext of an uplink payload is what the configuration's `Cipher` answers (rule R87). -/
theorem uplinkCiphertext_toList (k : SessionConfig) (c : Half) {n : Nat} (p : Vector Byte n) :
    uplinkCiphertext (Config.primitives k) k c p.toList = (Config.cipher k n p c .uplink k.appSKey).toList :=
  cipherBytes_toList ..

/-- Settles O12: `PBUF` is overwritten with the ciphertext, which is also the second part of the frame
(`completeEncode_frame`). -/
theorem encodeEncryptsThePayload : Obligations.EncodeEncryptsThePayload := by
  intro s n p h0 hn hp
  obtain ⟨-, hct, -⟩ := completeEncode_frame (Config.primitives s.cfg) n p.toList s rfl
  rw [uplinkCiphertext_toList] at hct
  refine ⟨_, encodeWith_completes _ h0 hn (by simp) hp, ?_, hct⟩
  rw [completeEncode_pbuf, uplinkCiphertext_toList]
  exact holds_writeRange _ _ _

/-- Settles O13: the last part of the frame (`completeEncode_frame`) is the MIC of the bytes before it, taken as a
string of length `9 + n`. -/
theorem encodeAppendsTheMic : Obligations.EncodeAppendsTheMic := by
  intro s n h0 hn hw
  obtain ⟨p, hl, he⟩ := exec_encode_of_written h0 hn hw
  obtain ⟨pre, hpre⟩ : ∃ pre : Vector Byte (9 + n),
      pre.toList = uplinkHeader s.cfg s.upcnt ++ uplinkCiphertext (Config.primitives s.cfg) s.cfg s.upcnt p :=
    ⟨⟨_, by simp [hl]⟩, List.toList_toArray⟩
  obtain ⟨-, -, hholds, hmic⟩ := completeEncode_frame (Config.primitives s.cfg) n p s hpre
  rw [micBytes_toList, hl] at hmic
  simp only [tagBytes, holds_cons, holds_nil, and_true] at hmic
  exact ⟨_, pre, _, he, hholds, rfl, hmic⟩

/-! ## The registers and the rest -/

/-- Settles O14: a completed ENCODE writes `nextCounter` and the length of its frame; the other three things an ENCODE
can do (`encodeWith_cases`) write neither. -/
theorem encodeAdvancesTheCounter : Obligations.EncodeAdvancesTheCounter := by
  refine ⟨fun s n h0 hn hw => ?_, fun s t n h hf => ?_⟩
  · obtain ⟨p, -, he⟩ := exec_encode_of_written h0 hn hw
    have hcap := pbufCap_add s.cfg
    have hmax := s.cfg.encBufCap.property.2
    exact ⟨_, _, he, BitVec.toNat_add s.upcnt 1, rfl, uplinkLength_toNat (by omega), by omega⟩
  · rcases encodeWith_cases (Config.primitives s.cfg) n s with
      ⟨-, e⟩ | ⟨-, -, e⟩ | ⟨-, -, -, e⟩ | ⟨p, h0, -, -, -, e⟩
    · cases h.symm.trans e; rfl
    · cases h.symm.trans e; rfl
    · cases h.symm.trans e; rfl
    · cases h.symm.trans e; exact absurd h0 hf

/-- Settles O15: the two buffers are written over the ciphertext and over the frame alone (`read_writeRange_outside`),
whose lengths are `n` and `13 + n`. -/
theorem encodeChangesNothingElse : Obligations.EncodeChangesNothingElse := by
  intro s n h0 hn hw
  obtain ⟨p, hl, he⟩ := exec_encode_of_written h0 hn hw
  refine ⟨_, he, fun a ha => ?_, fun a ha => ?_, rfl, rfl, rfl, rfl, rfl, rfl, rfl⟩
  · exact read_writeRange_outside _ _ (.inr (by simpa [hl] using ha))
  · exact read_writeRange_outside _ _ (.inr (by simpa [hl] using ha))

/-! ## What an ENCODE reads -/

/-- Two blocks agree on all that an `ENCODE n` reads (rule R64): the configuration, the counter and the payload. -/
structure AgreeForEncode (n : Nat) (s s' : State) : Prop where
  cfg : s.cfg = s'.cfg
  upcnt : s.upcnt = s'.upcnt
  payload : ∀ i < n, s.pbuf.read i = s'.pbuf.read i

/-- Two ends of an `ENCODE n` that show the same: the fault, the counter, the payload buffer, and of a completed one the
frame and its length. -/
def EncodedAlike (n : Nat) (t t' : State) : Prop :=
  t.faultCause = t'.faultCause ∧ t.upcnt = t'.upcnt ∧ (∀ i < n, t.pbuf.read i = t'.pbuf.read i)
    ∧ (t.faultCause = 0#8 → t.resLen = t'.resLen ∧ ∀ i < 13 + n, t.txbuf.read i = t'.txbuf.read i)

theorem raiseFault_encodedAlike (c : FaultCause) {n : Nat} {s s' : State} (h : AgreeForEncode n s s') :
    EncodedAlike n (raiseFault c s) (raiseFault c s') :=
  ⟨rfl, h.upcnt, h.payload, fun h0 => absurd h0 (code_ne_zero c)⟩

/-- A completed ENCODE of the same payload writes the same ciphertext and the same frame, over every byte of the frame's
range. -/
theorem completeEncode_encodedAlike (P : Primitives) {n : Nat} {p : List Byte} {s s' : State}
    (h : AgreeForEncode n s s') (hl : p.length = n) (hfc : s.faultCause = s'.faultCause) :
    EncodedAlike n (completeEncode P n p s) (completeEncode P n p s') := by
  refine ⟨hfc, congrArg nextCounter h.upcnt, fun i hi => ?_, fun _ => ⟨rfl, fun i hi => ?_⟩⟩
  · rw [completeEncode_pbuf, completeEncode_pbuf, h.cfg, h.upcnt]
    exact read_writeRange_congr (h.payload i hi) _ _
  · rw [completeEncode_txbuf, completeEncode_txbuf, h.cfg, h.upcnt, read_writeRange, read_writeRange,
      if_pos (by simp; omega), if_pos (by simp; omega)]

/-- Each check of an ENCODE on the first block comes out the same on the second; where both complete, the payload they
read is one string. -/
theorem encodeWith_encodedAlike (P : Primitives) {n : Nat} {s s' : State} (h0 : s.faultCause = 0#8)
    (h0' : s'.faultCause = 0#8) (h : AgreeForEncode n s s') :
    ∃ t t', encodeWith P n s = .next t ∧ encodeWith P n s' = .next t' ∧ EncodedAlike n t t' := by
  rcases encodeWith_cases P n s with ⟨hx, -⟩ | ⟨-, hn, e⟩ | ⟨-, hn, ⟨i, hi, hr⟩, e⟩ | ⟨p, -, hn, hl, hp, e⟩
  · exact absurd h0 hx
  · exact ⟨_, _, e, encodeWith_overflow P h0' (h.cfg ▸ hn), raiseFault_encodedAlike _ h⟩
  · have hr' : s'.pbuf.read i = none := (h.payload i hi).symm.trans hr
    exact ⟨_, _, e, encodeWith_unwritten P h0' (h.cfg ▸ hn) ⟨i, hi, hr'⟩, raiseFault_encodedAlike _ h⟩
  · have hp' : s'.pbuf.holds 0 p := fun i hi => by
      rw [← hp i hi, Nat.zero_add, h.payload i (hl ▸ hi)]
    exact ⟨_, _, e, encodeWith_completes P h0' (h.cfg ▸ hn) hl hp',
      completeEncode_encodedAlike P h hl (h0.trans h0'.symm)⟩

/-- Settles O16: the two blocks agree on all that an ENCODE reads, and call the same primitives, so its two ends show
the same (`encodeWith_encodedAlike`). -/
theorem encodeDependsOnlyOnItsInputs : Obligations.EncodeDependsOnlyOnItsInputs := by
  intro s s' t t' n h0 h0' hcfg hup hpay ht ht'
  obtain ⟨u, u', hu, hu', halike⟩ := encodeWith_encodedAlike (Config.primitives s.cfg) h0 h0' ⟨hcfg, hup, hpay⟩
  cases ht.symm.trans hu
  rw [hcfg] at hu'
  cases ht'.symm.trans hu'
  exact halike

end Sys2Proof.Machine
end

section
/-! PROOFS. DECODE: its checks, its three reports, the loopback round trip and the rejection of flipped bits
(41_decode.md). -/

namespace Sys2Proof.Machine

/-! ## When a DECODE completes -/

/-- An admitted DECODE whose frame is written completes: `f` is the frame it reads. -/
theorem exec_decode_of_written {s : State} {len : Nat} (h0 : s.faultCause = 0#8) (h8 : 8 ≤ len)
    (hcap : len ≤ s.cfg.decBufCap.val) (hw : ∀ i < len, s.rxbuf.read i ≠ none) :
    ∃ f, exec (.decode len) s = .next (completeDecode (Config.primitives s.cfg) len f s) := by
  obtain ⟨f, hf, hh⟩ := holds_of_written (m := s.rxbuf) (a := 0) (by simpa using hw)
  exact ⟨f, decodeWith_completes _ h0 h8 hcap hf hh⟩

/-- The converse: a DECODE that leaves `FAULT_CAUSE` 0 found an admitted length and a written frame, and has
completed. -/
theorem decodeWith_completed {P : Primitives} {len : Nat} {s t : State} (h : decodeWith P len s = .next t)
    (h0 : t.faultCause = 0#8) :
    ∃ f, 8 ≤ len ∧ len ≤ s.cfg.decBufCap.val ∧ f.length = len ∧ s.rxbuf.holds 0 f ∧ t = completeDecode P len f s := by
  rcases decodeWith_cases P len s with
    ⟨hx, e⟩ | ⟨-, -, e⟩ | ⟨-, -, e⟩ | ⟨-, -, -, -, e⟩ | ⟨f, -, h8, hcap, hf, hh, e⟩
  · cases h.symm.trans e; exact absurd h0 hx
  · cases h.symm.trans e; exact absurd h0 (code_ne_zero .decTooShort)
  · cases h.symm.trans e; exact absurd h0 (code_ne_zero .decTooLong)
  · cases h.symm.trans e; exact absurd h0 (code_ne_zero .unwrittenRead)
  · cases h.symm.trans e; exact ⟨f, h8, hcap, hf, hh, rfl⟩

/-- Settles O18: the two bounds of rule R96, one check each. -/
theorem decodeFaultsOnLength : Obligations.DecodeFaultsOnLength := by
  intro s len h0
  exact ⟨decodeWith_tooShort _ h0, decodeWith_tooLong _ h0⟩

/-- Settles O19, by the check for a written frame: `decodeWith_unwritten` where it fails, `exec_decode_of_written` where
it passes, and a completed DECODE leaves `FAULT_CAUSE` alone (`completeDecode_frame`). -/
theorem decodeNeedsAWrittenFrame : Obligations.DecodeNeedsAWrittenFrame := by
  intro s len h0 h8 hcap
  refine ⟨decodeWith_unwritten _ h0 h8 hcap, fun hw => ?_⟩
  obtain ⟨f, he⟩ := exec_decode_of_written h0 h8 hcap hw
  obtain ⟨-, -, hfc, -⟩ := completeDecode_frame (Config.primitives s.cfg) len f s
  exact ⟨_, he, hfc.trans h0⟩

/-! ## The three reports -/

section Reports
variable {P : Primitives} {pe : Nat} {f : List Byte} {s : State}

theorem completeDecode_mismatch (hm : micMatches P s.cfg f pe = false) :
    completeDecode P (pe + 4) f s = reportNoPayload .micMismatch s := by
  rcases completeDecode_cases P (pe + 4) f s with ⟨-, e⟩ | ⟨hm', -⟩ | ⟨hm', -⟩
  · exact e
  · exact absurd (hm.symm.trans hm') (by decide)
  · exact absurd (hm.symm.trans hm') (by decide)

theorem completeDecode_empty (hm : micMatches P s.cfg f pe = true) (hoff : pe ≤ payloadOffset (frameByte f 5)) :
    completeDecode P (pe + 4) f s = reportNoPayload .emptyPayload s := by
  rcases completeDecode_cases P (pe + 4) f s with ⟨hm', -⟩ | ⟨-, -, e⟩ | ⟨-, hoff', -⟩
  · exact absurd (hm.symm.trans hm') (by decide)
  · exact e
  · exact absurd hoff (Nat.not_le.2 hoff')

theorem completeDecode_payload (hm : micMatches P s.cfg f pe = true) (hoff : payloadOffset (frameByte f 5) < pe) :
    completeDecode P (pe + 4) f s = reportPayload P f (payloadOffset (frameByte f 5)) pe s := by
  rcases completeDecode_cases P (pe + 4) f s with ⟨hm', -⟩ | ⟨-, hoff', -⟩ | ⟨-, -, e⟩
  · exact absurd (hm.symm.trans hm') (by decide)
  · exact absurd hoff (Nat.not_lt.2 hoff')
  · exact e

/-- A DECODE of a frame whose MIC does not match (rule R100). -/
theorem decodeWith_mismatch (h0 : s.faultCause = 0#8) (h4 : 4 ≤ pe) (hcap : pe + 4 ≤ s.cfg.decBufCap.val)
    (hf : f.length = pe + 4) (hh : s.rxbuf.holds 0 f) (hm : micMatches P s.cfg f pe = false) :
    decodeWith P (pe + 4) s = .next { s with resOff := some 0xFF#8, decStatus := 0x02#8 } := by
  rw [decodeWith_completes P h0 (by omega) hcap hf hh, completeDecode_mismatch hm]
  rfl

end Reports

/-! ## The MIC test -/

/-- The MIC test compares the recomputed MIC with the last four bytes of the frame (rule R99). -/
theorem micMatches_iff {P : Primitives} {k : SessionConfig} {f : List Byte} {pe : Nat} :
    micMatches P k f pe = true
      ↔ micBytes P (slice f 0 pe) (frameCounter f) k.decodeDirection k.nwkSKey = slice f pe (pe + 4) :=
  decide_eq_true_iff

@[simp] theorem slice_length (f : List Byte) (a b : Nat) : (slice f a b).length = min b f.length - a := by
  rw [slice, List.length_drop, List.length_take]

/-- The counter of a frame in a buffer (rule R93). -/
theorem frameCounter_of_holds {mem : Memory} {f : List Byte} {lo hi : Byte} (h8 : 8 ≤ f.length) (hh : mem.holds 0 f)
    (hlo : mem.read 6 = some lo) (hhi : mem.read 7 = some hi) : frameCounter f = hi ++ lo := by
  rw [frameCounter_eq, frameByte_of_holds hh (by omega) hlo, frameByte_of_holds hh (by omega) hhi]

/-- The MIC test on a frame in a buffer (rule R99). -/
theorem micMatches_of_holds (P : Primitives) (k : SessionConfig) {mem : Memory} {n : Nat} {pre : Vector Byte n}
    {m : MicTag} {lo hi : Byte} (h4 : 4 ≤ n) (hh : mem.holds 0 (pre.toList ++ tagBytes m))
    (hlo : mem.read 6 = some lo) (hhi : mem.read 7 = some hi) :
    micMatches P k (pre.toList ++ tagBytes m) n = true ↔ P.mic n pre (hi ++ lo) k.decodeDirection k.nwkSKey = m := by
  rw [micMatches_append, frameCounter_of_holds (by simp; omega) hh hlo hhi, decide_eq_true_iff]

/-- Settles O20: the MIC test fails (`micMatches_of_holds`), which is reported alone (`decodeWith_mismatch`). -/
theorem decodeRejectsAWrongMic : Obligations.DecodeRejectsAWrongMic := by
  intro s pe pre m lo hi h0 h4 hcap hh hlo hhi hne
  have hmic := micMatches_of_holds (Config.primitives s.cfg) s.cfg h4 hh hlo hhi
  exact decodeWith_mismatch h0 h4 hcap (by simp) hh (Bool.eq_false_iff.2 fun h => hne (hmic.1 h))

/-- Settles O21: the MIC test passes (`micMatches_of_holds`), and the payload offset is at the payload end or past it
(`completeDecode_empty`). -/
theorem decodeReportsAnEmptyPayload : Obligations.DecodeReportsAnEmptyPayload := by
  intro s pe pre m fctrl lo hi h0 h4 hcap hh hfc hlo hhi hm hlen
  have hmic := micMatches_of_holds (Config.primitives s.cfg) s.cfg h4 hh hlo hhi
  have hbyte : frameByte (pre.toList ++ tagBytes m) 5 = fctrl := frameByte_of_holds hh (by simp; omega) hfc
  have hoff : pe ≤ payloadOffset (frameByte (pre.toList ++ tagBytes m) 5) := by
    rw [hbyte, payloadOffset_eq]
    omega
  have hdec := decodeWith_completes (Config.primitives s.cfg) h0 (by omega) hcap (by simp) hh
  exact hdec.trans (congrArg _ (completeDecode_empty (hmic.2 hm) hoff))

/-- Settles O22: the MIC test passes (`micMatches_of_holds`), the payload lies between the offset and the payload end
(`completeDecode_payload`, `slice_middle`), and is overwritten by its decryption alone. -/
theorem decodeDecryptsThePayload : Obligations.DecodeDecryptsThePayload := by
  intro s off plen hdr ct m fctrl lo hi h0 hcap hh hfc hlo hhi hoff hpos hm
  have hpre : (hdr ++ ct).toList = hdr.toList ++ ct.toList := Vector.toList_append
  have hh' : s.rxbuf.holds 0 ((hdr ++ ct).toList ++ tagBytes m) := hpre ▸ hh
  have hmic := micMatches_of_holds (Config.primitives s.cfg) s.cfg (by omega) hh' hlo hhi
  have hctr : frameCounter ((hdr ++ ct).toList ++ tagBytes m) = hi ++ lo :=
    frameCounter_of_holds (by simp; omega) hh' hlo hhi
  have hbyte : payloadOffset (frameByte ((hdr ++ ct).toList ++ tagBytes m) 5) = off := by
    rw [frameByte_of_holds hh' (by simp; omega) hfc, payloadOffset_eq, hoff]
  have hslice : slice ((hdr ++ ct).toList ++ tagBytes m) off (off + plen) = ct.toList := by
    rw [hpre]; exact slice_middle (by simp) (by simp)
  have hdec := decodeWith_completes (Config.primitives s.cfg) h0 (by omega) hcap (by simp; omega) hh'
  rw [completeDecode_payload (hmic.2 hm) (by omega), hbyte] at hdec
  have hrx : (reportPayload (Config.primitives s.cfg) ((hdr ++ ct).toList ++ tagBytes m) off (off + plen) s).rxbuf
      = s.rxbuf.writeRange off
          (Config.cipher s.cfg plen ct (hi ++ lo) s.cfg.decodeDirection s.cfg.appSKey).toList := by
    rw [reportPayload_rxbuf, hslice, hctr, cipherBytes_toList]; rfl
  refine ⟨_, hdec, ?_, fun a ha => ?_, rfl, rfl, h0⟩
  · rw [hrx]; exact holds_writeRange _ _ _
  · rw [hrx]; exact read_writeRange_outside _ _ (by simpa using ha)

/-! ## What a DECODE leaves alone -/

/-- A completed DECODE writes `RXBUF` only on success, and there only from the offset it reports up to the payload end
(rules R103, R107). -/
theorem completeDecode_rxbuf (P : Primitives) (len : Nat) (f : List Byte) (s : State) :
    (∀ a, (completeDecode P len f s).rxbuf.read a ≠ s.rxbuf.read a →
        (completeDecode P len f s).decStatus = 0x01#8
          ∧ ∃ r, (completeDecode P len f s).resOff = some r ∧ r.toNat ≤ a ∧ a < len - 4)
      ∧ ((completeDecode P len f s).decStatus ≠ 0x01#8 → (completeDecode P len f s).rxbuf = s.rxbuf) := by
  rcases completeDecode_cases P len f s with ⟨-, e⟩ | ⟨-, -, e⟩ | ⟨-, hoff, e⟩
  · rw [e]; exact ⟨fun a hne => absurd rfl hne, fun _ => rfl⟩
  · rw [e]; exact ⟨fun a hne => absurd rfl hne, fun _ => rfl⟩
  · rw [e]
    refine ⟨fun a hne => ⟨rfl, _, rfl, ?_⟩, fun hst => absurd rfl hst⟩
    rw [offsetResult_toNat]
    by_contra hout
    refine hne (read_writeRange_outside _ _ ?_)
    rw [cipherBytes_length, slice_length]
    omega

/-- Settles O23: `RXBUF` by `completeDecode_rxbuf`, every other field by `completeDecode_frame`. -/
theorem decodeChangesNothingElse : Obligations.DecodeChangesNothingElse := by
  intro s len h0 h8 hcap hw
  obtain ⟨f, he⟩ := exec_decode_of_written h0 h8 hcap hw
  obtain ⟨hread, hrx⟩ := completeDecode_rxbuf (Config.primitives s.cfg) len f s
  obtain ⟨hup, hlen, hfc, hpb, htx, hcfg, hscr, hdata⟩ := completeDecode_frame (Config.primitives s.cfg) len f s
  exact ⟨_, he, hread, hrx, hup, hlen, hpb, htx, hfc, hcfg, hscr, hdata⟩

/-! ## The payload offset -/

/-- Settles O25: the offset is `9 + v mod 16` (`payloadOffset_eq`), and `v mod 16` is the value of the low four bits. -/
theorem payloadOffsetIsNinePlusLowNibble : Obligations.PayloadOffsetIsNinePlusLowNibble := by
  intro v
  have hlow : ∀ u : Byte, (u.extractLsb' 0 4).toNat = u.toNat % 16 := fun u => BitVec.extractLsb'_toNat ..
  refine ⟨rfl, ?_, ?_, fun w hw => ?_⟩
  · rw [payloadOffset_eq]; omega
  · rw [payloadOffset_eq]; omega
  · rw [payloadOffset_eq, payloadOffset_eq, ← hlow, ← hlow, hw]

/-- A DECODE that succeeds reports the offset that its frame-control byte gives (rules R94, R105). -/
theorem decodeWith_offset {P : Primitives} {len : Nat} {s t : State} {v r : Byte} (hv : s.rxbuf.read 5 = some v)
    (h : decodeWith P len s = .next t) (h0 : t.faultCause = 0#8) (hst : t.decStatus = 0x01#8)
    (hr : t.resOff = some r) : r.toNat = 9 + v.toNat % 16 := by
  obtain ⟨f, h8, -, hf, hh, rfl⟩ := decodeWith_completed h h0
  rcases completeDecode_cases P len f s with ⟨-, e⟩ | ⟨-, -, e⟩ | ⟨-, -, e⟩
  · rw [e] at hst; cases hst
  · rw [e] at hst; cases hst
  · rw [e] at hr
    cases hr
    rw [offsetResult_toNat, payloadOffset_eq, frameByte_of_holds hh (by omega) hv]

/-- Settles O26: each of the two offsets is 9 plus the low nibble of its own frame-control byte (`decodeWith_offset`). -/
theorem optionsShiftThePayloadOffset : Obligations.OptionsShiftThePayloadOffset := by
  intro P P' s s' t t' len len' k v v' r r' _ _ hv hv' hzero hk h h' h0 h0' hst hst' hr hr'
  have hoff := decodeWith_offset hv h h0 hst hr
  have hoff' := decodeWith_offset hv' h' h0' hst' hr'
  omega

/-! ## The loopback round trip -/

/-- A copy of a frame that fits both buffers leaves it in `RXBUF`. -/
theorem hostCopyFrame_holds {s : State} {n : Nat} {f : List Byte} (hf : f.length = n)
    (henc : n ≤ s.cfg.encBufCap.val) (hdec : n ≤ s.cfg.decBufCap.val) (h : s.txbuf.holds 0 f) :
    (hostCopyFrame n s).rxbuf.holds 0 f := fun i hi => by
  have hbyte : hostByte .txbuf i s = s.txbuf.read i := if_pos (show i < s.cfg.encBufCap.val by omega)
  rw [Nat.zero_add, read_hostCopyFrame, if_pos (by omega), hbyte]
  simpa using h i hi

section UplinkFrame
variable (P : Primitives) (k : SessionConfig) (c : Half) (ct : List Byte)

theorem frameCounter_uplinkFrame : frameCounter (uplinkFrame P k c ct) = c := counterOf_le16 c

theorem payloadOffset_uplinkFrame : payloadOffset (frameByte (uplinkFrame P k c ct) 5) = 9 := payloadOffset_eq 0x00#8

theorem slice_uplinkFrame {n : Nat} (hl : ct.length = n) : slice (uplinkFrame P k c ct) 9 (9 + n) = ct :=
  slice_middle (uplinkHeader_length k c) hl

/-- The MIC of an uplink frame matches where DECODE uses the direction of ENCODE. -/
theorem micMatches_uplinkFrame (hd : k.decodeDirection = .uplink) {n : Nat} (hl : ct.length = n) :
    micMatches P k (uplinkFrame P k c ct) (9 + n) = true := by
  have hlen : (uplinkHeader k c ++ ct).length = 9 + n := by simp [hl]
  have hpre : slice (uplinkFrame P k c ct) 0 (9 + n) = uplinkHeader k c ++ ct := slice_left hlen
  have hmic : slice (uplinkFrame P k c ct) (9 + n) (9 + n + 4)
      = micBytes P (uplinkHeader k c ++ ct) c .uplink k.nwkSKey := slice_right hlen rfl
  rw [micMatches_iff, hpre, hmic, frameCounter_uplinkFrame, hd]

end UplinkFrame

/-- What the copy of a completed ENCODE's frame leaves in the block: the frame in `RXBUF`, the configuration and
`FAULT_CAUSE` as before. -/
theorem hostCopyFrame_completeEncode (P : Primitives) {n : Nat} {p : List Byte} {s : State} (hn : n ≤ s.cfg.pbufCap)
    (hcap : 13 + n ≤ s.cfg.decBufCap.val) (hl : p.length = n) :
    (hostCopyFrame (13 + n) (completeEncode P n p s)).cfg = s.cfg
      ∧ (hostCopyFrame (13 + n) (completeEncode P n p s)).faultCause = s.faultCause
      ∧ (hostCopyFrame (13 + n) (completeEncode P n p s)).rxbuf.holds 0
          (uplinkFrame P s.cfg s.upcnt (uplinkCiphertext P s.cfg s.upcnt p)) := by
  have hlen : (uplinkFrame P s.cfg s.upcnt (uplinkCiphertext P s.cfg s.upcnt p)).length = 13 + n := by simp [hl]
  have henc : 13 + n ≤ s.cfg.encBufCap.val := by
    have := pbufCap_add s.cfg
    omega
  have hrx := hostCopyFrame_holds (s := completeEncode P n p s) hlen henc hcap (holds_writeRange _ _ _)
  refine ⟨?_, ?_, hrx⟩
  · rw [hostCopyFrame_frame, completeEncode_cfg]
  · rw [hostCopyFrame_frame, completeEncode_faultCause]

section DecodeUplinkFrame
variable {P : Primitives} {c : Half} {w : State} {n : Nat}

/-- DECODE of an uplink frame, with the direction of ENCODE: its MIC matches, and its payload starts at 9 (rules R102,
R105). -/
theorem decodeWith_uplinkFrame {ct : List Byte} (h0 : w.faultCause = 0#8) (hd : w.cfg.decodeDirection = .uplink)
    (hcap : 13 + n ≤ w.cfg.decBufCap.val) (hl : ct.length = n) (hh : w.rxbuf.holds 0 (uplinkFrame P w.cfg c ct)) :
    (n = 0 → decodeWith P (13 + n) w = .next (reportNoPayload .emptyPayload w))
      ∧ (1 ≤ n → decodeWith P (13 + n) w = .next (reportPayload P (uplinkFrame P w.cfg c ct) 9 (9 + n) w)) := by
  have hoff : payloadOffset (frameByte (uplinkFrame P w.cfg c ct) 5) = 9 := payloadOffset_uplinkFrame P w.cfg c ct
  have hmic : micMatches P w.cfg (uplinkFrame P w.cfg c ct) (9 + n) = true := micMatches_uplinkFrame P w.cfg c ct hd hl
  rw [decodeWith_completes P h0 (by omega) hcap (by simp [hl]) hh, show 13 + n = 9 + n + 4 by omega]
  refine ⟨fun hzero => ?_, fun hpos => ?_⟩
  · rw [completeDecode_empty hmic (by omega)]
  · rw [completeDecode_payload hmic (by omega), hoff]

/-- Decrypting the payload of an uplink frame gives back what was encrypted: the key, the counter and the direction are
the same (rule R108). -/
theorem reportPayload_uplinkFrame_holds {p : List Byte} (hP : CipherInvolutive P)
    (hd : w.cfg.decodeDirection = .uplink) (hl : p.length = n) :
    (reportPayload P (uplinkFrame P w.cfg c (uplinkCiphertext P w.cfg c p)) 9 (9 + n) w).rxbuf.holds 9 p := by
  rw [reportPayload_rxbuf, slice_uplinkFrame _ _ _ _ (by simp [hl]), frameCounter_uplinkFrame, hd, uplinkCiphertext,
    cipherBytes_involutive hP]
  exact holds_writeRange _ _ _

end DecodeUplinkFrame

/-- Settles O27. ENCODE completes, and its frame is in `RXBUF` after the copy (`hostCopyFrame_completeEncode`). There it
decodes (`decodeWith_uplinkFrame`): with no payload it is reported empty, else its payload is decrypted to `p`
(`reportPayload_uplinkFrame_holds`). -/
theorem loopbackRoundTrip : Obligations.LoopbackRoundTrip := by
  intro P s n p h0 hdir hn hcap hp
  have hl : p.toList.length = n := by simp
  have henc := encodeWith_completes P h0 hn hl hp
  obtain ⟨hcfg, hfc, hrx⟩ := hostCopyFrame_completeEncode P hn hcap hl
  rw [← hcfg] at hdir hcap hrx
  obtain ⟨hempty, hpayload⟩ := decodeWith_uplinkFrame (hfc.trans h0) hdir hcap (by simp) hrx
  rcases Nat.eq_zero_or_pos n with hzero | hpos
  · exact ⟨_, _, henc, hempty hzero, hfc.trans h0, fun h => absurd hzero (Nat.ne_of_gt h), fun _ => ⟨rfl, rfl⟩⟩
  · exact ⟨_, _, henc, hpayload hpos, hfc.trans h0,
      fun _ => ⟨rfl, rfl, fun hP => reportPayload_uplinkFrame_holds hP hdir hl⟩,
      fun h => absurd h (Nat.ne_of_gt hpos)⟩

/-! ## Flipped bits -/

@[simp] theorem flipBit_length (f : List Byte) (i b : Nat) : (flipBit f i b).length = f.length :=
  List.length_modify ..

/-- A flipped bit is another bit. -/
theorem flipBit_ne {f : List Byte} {i b : Nat} (hi : i < f.length) (hb : b < 8) : flipBit f i b ≠ f := fun h => by
  have hbit : ∀ b < 8, 1#8 <<< b ≠ 0#8 := by decide
  have hbyte : f[i] ^^^ (1#8 <<< b) = f[i] :=
    (List.getElem_modify_eq _ i f (by simpa using hi)).symm.trans (List.getElem_of_eq h (by simpa using hi))
  exact hbit b hb ((BitVec.xor_right_inj f[i]).1 (hbyte.trans BitVec.xor_zero.symm))

theorem slice_flipBit_before (f : List Byte) {i a : Nat} (c b : Nat) (h : i < a) :
    slice (flipBit f i b) a c = slice f a c := by
  rw [slice, flipBit, List.take_modify, List.drop_modify_of_lt _ _ _ _ h]; rfl

theorem slice_flipBit_from (f : List Byte) {i a : Nat} (c b : Nat) (h : a ≤ i) :
    slice (flipBit f i b) a c = flipBit (slice f a c) (i - a) b := by
  rw [slice, flipBit, List.take_modify, List.drop_modify_of_ge _ _ _ _ h]; rfl

theorem frameByte_flipBit_same {f : List Byte} {i : Nat} (b : Nat) (hi : i < f.length) :
    frameByte (flipBit f i b) i = frameByte f i ^^^ (1#8 <<< b) := by
  simp [frameByte, flipBit, hi]

theorem frameByte_flipBit_other (f : List Byte) {i j : Nat} (b : Nat) (h : i ≠ j) :
    frameByte (flipBit f i b) j = frameByte f j := by
  simp [frameByte, flipBit, h]

/-- A flip outside bytes 6 and 7 leaves the frame's counter alone. -/
theorem frameCounter_flipBit_other (f : List Byte) {i : Nat} (b : Nat) (h6 : i ≠ 6) (h7 : i ≠ 7) :
    frameCounter (flipBit f i b) = frameCounter f := by
  rw [frameCounter_eq, frameCounter_eq, frameByte_flipBit_other f b h6, frameByte_flipBit_other f b h7]

/-- A flip anywhere in a frame flips at most one bit of its counter. -/
theorem frameCounter_flipBit {f : List Byte} {i b : Nat} (hi : i < f.length) (hb : b < 8) :
    frameCounter (flipBit f i b) = frameCounter f ∨ CounterBitFlip (frameCounter f) (frameCounter (flipBit f i b)) := by
  have hbits : ∀ b < 8, (0#8 ++ 1#8 <<< b : Half) = 1#16 <<< b ∧ (1#8 <<< b ++ 0#8 : Half) = 1#16 <<< (b + 8) := by
    decide
  obtain ⟨hlow, hhigh⟩ := hbits b hb
  by_cases h6 : i = 6
  · subst h6
    refine .inr ⟨b, by omega, ?_⟩
    rw [frameCounter_eq, frameCounter_eq, frameByte_flipBit_same b hi, frameByte_flipBit_other f b (by decide), ← hlow,
      BitVec.xor_append, BitVec.xor_zero]
  · by_cases h7 : i = 7
    · subst h7
      refine .inr ⟨b + 8, by omega, ?_⟩
      rw [frameCounter_eq, frameCounter_eq, frameByte_flipBit_same b hi, frameByte_flipBit_other f b (by decide),
        ← hhigh, BitVec.xor_append, BitVec.xor_zero]
    · exact .inl (frameCounter_flipBit_other f b h6 h7)

/-- The assumption of rule R108 on byte strings. -/
theorem micBytes_flipBit_ne {P : Primitives} (hP : MicDetectsBitFlip P) {s : List Byte} {i b : Nat} {c c' : Half}
    (d : Direction) (K : Key) (hi : i < s.length) (hb : b < 8) (hc : c' = c ∨ CounterBitFlip c c') :
    micBytes P (flipBit s i b) c' d K ≠ micBytes P s c d K := by
  let v : Vector Byte s.length := ⟨s.toArray, List.size_toArray⟩
  let v' : Vector Byte s.length := ⟨(flipBit s i b).toArray, by simp⟩
  have hv' : micBytes P (flipBit s i b) c' d K = tagBytes (P.mic s.length v' c' d K) := micBytes_toList P v' c' d K
  rw [hv']
  exact fun h => hP.input _ v v' i b c c' d K hi hb rfl hc (tagBytes_inj h)

/-- A flip in the bytes the MIC covers changes the recomputed MIC and not the one in the frame. -/
theorem micMatches_flipBit_covered {P : Primitives} (hP : MicDetectsBitFlip P) {k : SessionConfig} {f : List Byte}
    {pe i b : Nat} (hf : f.length = pe + 4) (hi : i < pe) (hb : b < 8) (hm : micMatches P k f pe = true) :
    micMatches P k (flipBit f i b) pe = false := by
  have hin : i < (slice f 0 pe).length := by simp; omega
  have hne := micBytes_flipBit_ne hP k.decodeDirection k.nwkSKey hin hb
    (frameCounter_flipBit (f := f) (i := i) (by omega) hb)
  rw [micMatches_iff] at hm
  rw [Bool.eq_false_iff, ne_eq, micMatches_iff, slice_flipBit_from f pe b (Nat.zero_le i), Nat.sub_zero,
    slice_flipBit_before f _ b hi, ← hm]
  exact hne

/-- A flip in the MIC field outside bytes 6 and 7 changes the MIC in the frame and not the recomputed one. -/
theorem micMatches_flipBit_field {P : Primitives} {k : SessionConfig} {f : List Byte} {pe i b : Nat}
    (hf : f.length = pe + 4) (hi : pe ≤ i) (hi' : i < pe + 4) (h6 : i ≠ 6) (h7 : i ≠ 7) (hb : b < 8)
    (hm : micMatches P k f pe = true) : micMatches P k (flipBit f i b) pe = false := by
  have hcovered : flipBit (slice f 0 pe) i b = slice f 0 pe := List.modify_eq_self (by simp; omega)
  have hne : flipBit (slice f pe (pe + 4)) (i - pe) b ≠ slice f pe (pe + 4) := flipBit_ne (by simp; omega) hb
  rw [micMatches_iff] at hm
  rw [Bool.eq_false_iff, ne_eq, micMatches_iff, slice_flipBit_from f pe b (Nat.zero_le i), Nat.sub_zero, hcovered,
    frameCounter_flipBit_other f b h6 h7, slice_flipBit_from f _ b hi, hm]
  exact hne.symm

/-- A completed DECODE that does not report a mismatch has tested the frame in its buffer and found its MIC to match. -/
theorem decodeWith_matched {P : Primitives} {len : Nat} {s t : State} {f : List Byte} (h : decodeWith P len s = .next t)
    (h0 : t.faultCause = 0#8) (hst : t.decStatus ≠ 0x02#8) (hf : f.length = len) (hh : s.rxbuf.holds 0 f) :
    ∃ pe, len = pe + 4 ∧ 4 ≤ pe ∧ pe + 4 ≤ s.cfg.decBufCap.val ∧ micMatches P s.cfg f pe = true := by
  obtain ⟨g, h8, hcap, hg, hgh, rfl⟩ := decodeWith_completed h h0
  obtain rfl : g = f := holds_unique (fun _ _ => rfl) hg hf hgh hh
  obtain ⟨pe, rfl⟩ : ∃ pe, len = pe + 4 := ⟨len - 4, by omega⟩
  refine ⟨pe, rfl, by omega, hcap, Bool.of_not_eq_false fun hm => hst ?_⟩
  rw [completeDecode_mismatch hm]
  rfl

/-- Settles O28. The unflipped frame has a matching MIC (`decodeWith_matched`), so under the assumption, as log entry 12
reads it, the flipped one has not (`micMatches_flipBit_covered`), which is reported alone (`decodeWith_mismatch`). -/
theorem flippedFrameBitIsRejected : Obligations.FlippedFrameBitIsRejected := by
  intro P s t len i b f m' hP h0 h ht hst hf hh hi hb hh'
  obtain ⟨pe, rfl, h4, hcap, hm⟩ := decodeWith_matched h ht hst hf hh
  exact decodeWith_mismatch (s := { s with rxbuf := m' }) h0 h4 hcap (by simpa using hf) hh'
    (micMatches_flipBit_covered hP hf hi hb hm)

/-- Settles O29, as O28 but with no assumption: the recomputed MIC stays, since the flip is outside the bytes it covers
and, bytes 6 and 7 being left out (log entry 12), outside the counter (`micMatches_flipBit_field`). -/
theorem flippedMicBitIsRejected : Obligations.FlippedMicBitIsRejected := by
  intro P s t len i b f m' h0 h ht hst hf hh hi hi' h6 h7 hb hh'
  obtain ⟨pe, rfl, h4, hcap, hm⟩ := decodeWith_matched h ht hst hf hh
  exact decodeWith_mismatch (s := { s with rxbuf := m' }) h0 h4 hcap (by simpa using hf) hh'
    (micMatches_flipBit_field hf hi hi' h6 h7 hb hm)

end Sys2Proof.Machine
end

section
/-! PROOFS. The exceptions: the checks of a command word in their order, the halted block and the idle block
(60_exceptions.md). -/

namespace Sys2Proof.Machine

/-! ## The halted block over a run -/

/-- The registers and the configuration: the part of the block that no host access but a command or a reset writes. -/
def State.registers (s : State) : Byte × Half × Option Byte × Option Byte × Byte × SessionConfig :=
  (s.faultCause, s.upcnt, s.resLen, s.resOff, s.decStatus, s.cfg)

theorem setBuf_registers (s : State) (b : Buffer) (m : Memory) : (s.setBuf b m).registers = s.registers := by
  simp [State.registers]

/-- No move but a reset gets a halted block to change a register: a command word is ignored (rule R113), and every other
move writes a buffer byte or the host's own fields. -/
theorem hostMove_halted_registers {a : HostAction} {s t : State} (ha : a.noReset = true) (hx : s.faultCause ≠ 0#8)
    (hm : hostMove a s = .next t) : t.registers = s.registers := by
  rcases hostMove_cases hm with ⟨k, rfl, -⟩ | ⟨w, rfl, hc⟩ | ⟨b, i, v, -, -, -, rfl⟩ | ⟨v, -, rfl⟩ | ⟨-, rfl⟩
  · cases ha
  · cases hc.symm.trans (issueCommand_halted w hx); rfl
  · exact setBuf_registers s b _
  · rfl
  · rfl

/-- A script without a reset leaves a halted block's registers alone. The block is still halted after the first move,
since `FAULT_CAUSE` is one of them, and this carries the induction over the script. -/
theorem runScript_halted_registers : ∀ s t, runScript s = .next t → (∀ a ∈ s.script, a.noReset = true) →
    s.faultCause ≠ 0#8 → t.registers = s.registers := by
  refine runScript_induction (fun _ _ _ _ => rfl) fun s a rest s' t hs hm hs' _ ih hall hx => ?_
  rw [hs] at hall
  obtain ⟨ha, hrest⟩ := List.forall_mem_cons.1 hall
  have hkept : s'.registers = s.registers := hostMove_halted_registers (s := { s with script := rest }) ha hx hm
  have hx' : s'.faultCause ≠ 0#8 := (congrArg Prod.fst hkept).trans_ne hx
  exact (ih (hs' ▸ hrest) hx').trans hkept

/-- Settles O44, by induction on the script (`runScript_halted_registers`), each register read off. -/
theorem haltedRunKeepsItsRegisters : Obligations.HaltedRunKeepsItsRegisters := by
  intro s t hx hall hrun
  have hkept : t.registers = s.registers := runScript_halted_registers s t hrun hall hx
  simpa only [State.registers, Prod.mk.injEq] using hkept

/-! ## The checks of a command word -/

/-- A host write to `CMD` issues its word (rule R59). -/
theorem step_cmd {s : State} {w : Half} {rest : List HostAction} (hs : s.script = .writeReg 0 w :: rest) :
    step s = issueCommand w { s with script := rest } := step_cons hs

/-- A reserved word faults a block that has not faulted (rule R110). -/
theorem illegalCommand_running {s : State} (h : s.faultCause = 0#8) :
    illegalCommand s = .next (raiseFault .illegalCommand s) := whenRunning_running h _

/-- Settles O7: both for a word, reserved or not (`issueCommand_halted`), and for a command (`exec_halted`). -/
theorem haltedBlockIgnoresEveryCommand : Obligations.HaltedBlockIgnoresEveryCommand := by
  refine ⟨fun s w rest hx hs => ?_, fun s i hx => exec_halted i hx⟩
  rw [step_cmd hs]
  exact issueCommand_halted w hx

/-- Settles O6: a word whose opcode is neither of the two decodes to no command (`decode_of_reserved`), and the block,
not halted, takes the fault (`illegalCommand_running`). -/
theorem reservedWordFaults : Obligations.ReservedWordFaults := by
  intro s w rest hs h0 he hd
  rw [step_cmd hs, issueCommand_error (decode_of_reserved he hd)]
  exact illegalCommand_running (s := { s with script := rest }) h0

/-- Settles O8, the checks in the order of rule R117: halted (O7), reserved (O6), then those of the command its opcode
selects (O2, O5). ENCODE checks its length (`encodeWith_overflow`) and its payload (O10), DECODE its length (O18)
and its frame (O19). -/
theorem commandChecksInOrder : Obligations.CommandChecksInOrder := by
  intro s op len rest hs
  obtain ⟨ho, -⟩ := append_fields op len
  have hdecode := wordsDecodeByTheirTwoFields op len
  refine ⟨fun hx => haltedBlockIgnoresEveryCommand.1 s _ rest hx hs, fun h0 => ⟨fun he hd => ?_, ?_, ?_⟩⟩
  · exact reservedWordFaults s _ rest hs h0 (ho.trans_ne he) (ho.trans_ne hd)
  · rintro rfl
    rw [stepRunsTheIssuedCommand s _ rest (.encode len.toNat) hs hdecode]
    exact ⟨encodeWith_overflow (s := { s with script := rest }) _ h0,
      encodeNeedsAWrittenPayload { s with script := rest } len.toNat h0⟩
  · rintro rfl
    rw [stepRunsTheIssuedCommand s _ rest (.decode len.toNat) hs hdecode]
    obtain ⟨hshort, hlong⟩ := decodeFaultsOnLength { s with script := rest } len.toNat h0
    exact ⟨hshort, hlong, decodeNeedsAWrittenFrame { s with script := rest } len.toNat h0⟩

/-! ## The idle block -/

/-- Settles O37: with no host move left the step is the idle step (`step_idle`, log entry 2). -/
theorem idleBlockHoldsItsState : Obligations.IdleBlockHoldsItsState := fun _ => step_idle

end Sys2Proof.Machine
end

section
/-! PROOFS. Reset, how a run ends, and what a run depends on (70_reset_and_hazards.md). -/

namespace Sys2Proof.Machine

/-! ## The configuration -/

/-- No command writes the configuration (rule R7). -/
theorem issueCommand_cfg {w : Half} {s t : State} (hc : issueCommand w s = .next t) : t.cfg = s.cfg := by
  rcases issueCommand_next hc with rfl | ⟨-, c, rfl⟩ | ⟨n, p, -, -, -, -, -, rfl⟩ | ⟨len, f, -, -, -, -, -, -, rfl⟩
  · rfl
  · exact raiseFault_cfg ..
  · exact completeEncode_cfg ..
  · obtain ⟨-, -, -, -, -, hcfg, -, -⟩ := completeDecode_frame (Config.primitives s.cfg) len f s
    exact hcfg

/-- A move that changes the configuration is a reset that supplies the new one (rule R127). -/
theorem hostMove_cfg {a : HostAction} {s t : State} (hm : hostMove a s = .next t) (hne : t.cfg ≠ s.cfg) :
    a = .reset (some t.cfg) := by
  rcases hostMove_cases hm with ⟨k, rfl, rfl⟩ | ⟨w, -, hc⟩ | ⟨b, i, v, -, -, -, rfl⟩ | ⟨v, -, rfl⟩ | ⟨-, rfl⟩
  · cases k with
    | none => exact absurd rfl hne
    | some k => rfl
  · exact absurd (issueCommand_cfg hc) hne
  · exact absurd (setBuf_cfg ..) hne
  · exact absurd rfl hne
  · exact absurd rfl hne

/-- A reset move is `resetBlock`, halted or not (rules R118, R127). -/
theorem step_reset {s : State} {k : Option SessionConfig} {rest : List HostAction} (hs : s.script = .reset k :: rest) :
    step s = .next (resetBlock k { s with script := rest }) := step_cons hs

/-- Settles O35: a reset step answers `resetBlock`, whose fields are the ones named, and of the moves only a reset that
supplies a configuration changes the one in force (`hostMove_cfg`). -/
theorem resetSetsEveryRegister : Obligations.ResetSetsEveryRegister := by
  refine ⟨fun s k rest hs => step_reset hs, fun s t h hne => ?_⟩
  rcases step_cases h with ⟨-, rfl⟩ | ⟨a, rest, hs, hm⟩
  · exact absurd rfl hne
  · obtain rfl := hostMove_cfg hm hne
    exact ⟨t.cfg, rest, hs, rfl⟩

/-! ## How a run ends -/

/-- A run has faulted exactly when some first actions of it, at least one, run as a script of their own, leave
`FAULT_CAUSE` other than 0. -/
theorem hasFaulted_iff {s : State} :
    HasFaulted s ↔ ∃ pre post m, s.script = pre ++ post ∧ pre ≠ [] ∧ runScript { s with script := pre } = .next m
      ∧ m.faultCause ≠ 0#8 := by
  have hpart {pre post : List HostAction} {m : State} (hs : s.script = pre ++ post)
      (hm : runScript { s with script := pre } = .next m) :
      Sys2Proof.core.run pre.length s = .next { m with script := post } := by
    have hrun := run_prefix post hm
    rwa [← hs] at hrun
  constructor
  · rintro ⟨n, t, h1, hn, ht, hf⟩
    have hs : s.script = s.script.take n ++ s.script.drop n := (List.take_append_drop n _).symm
    have hlen : (s.script.take n).length = n := List.length_take_of_le hn
    obtain ⟨m, hm⟩ := runScript_next { s with script := s.script.take n }
    have hrun := hpart hs hm
    rw [hlen] at hrun
    cases ht.symm.trans hrun
    exact ⟨_, _, m, hs, List.ne_nil_of_length_pos (by omega), hm, hf⟩
  · rintro ⟨pre, post, m, hs, hne, hm, hf⟩
    exact ⟨pre.length, _, List.length_pos_iff.2 hne, by simp [hs], hpart hs hm, hf⟩

/-- Its last action is one of a run's actions, so a run that has not faulted ends with `FAULT_CAUSE` 0. -/
theorem endsNormally_iff {s : State} : EndsNormally s ↔ IsRun s ∧ ¬ HasFaulted s := by
  refine ⟨fun ⟨hrun, _, hf⟩ => ⟨hrun, hf⟩, fun ⟨hrun, hf⟩ => ⟨hrun, ?_, hf⟩⟩
  obtain ⟨t, ht⟩ := runScript_next s
  obtain ⟨k, rest, hs⟩ := hrun
  have h0 : t.faultCause = 0#8 := by
    by_contra hx
    exact hf ⟨s.script.length, t, by simp [hs], le_rfl, ht, hx⟩
  exact ⟨t, ht, h0⟩

/-- The bytes observed of a buffer are those it holds at the indices inside it. -/
theorem bytes_eq (s : State) (b : Buffer) :
    s.bytes b = (List.range (SessionConfig.cap s.cfg b)).map (s.buf b).read :=
  List.map_congr_left fun _ hi => if_pos (List.mem_range.1 hi)

theorem runObservation_of_next {s t : State} (h : runScript s = .next t) : runObservation s = some t.observe := by
  rw [runObservation, h]

/-- Settles O46. A fault is looked for after every first part of the run (`hasFaulted_iff`), the whole run among them
(`endsNormally_iff`), and the observation is that of the state every script ends in (`runScript_next`). -/
theorem runsEndAsTheRuleSays : Obligations.RunsEndAsTheRuleSays := by
  intro s
  refine ⟨?_, fun pre post m hs hne hm hx => ?_, ?_⟩
  · rw [endsNormally_iff, hasFaulted_iff]
    refine and_congr_right fun _ => ⟨fun hf pre post hs hne => ?_, ?_⟩
    · obtain ⟨m, hm⟩ := runScript_next { s with script := pre }
      exact ⟨m, hm, by_contra fun hx => hf ⟨pre, post, m, hs, hne, hm, hx⟩⟩
    · rintro hall ⟨pre, post, m, hs, hne, hm, hx⟩
      obtain ⟨m', hm', h0⟩ := hall pre post hs hne
      cases hm.symm.trans hm'
      exact hx h0
  · have hf : HasFaulted s := hasFaulted_iff.2 ⟨pre, post, m, hs, hne, hm, hx⟩
    exact ⟨hf, fun h => (endsNormally_iff.1 h).2 hf⟩
  · obtain ⟨t, ht⟩ := runScript_next s
    refine ⟨t, ht, ?_⟩
    rw [runObservation_of_next ht, State.observe, bytes_eq, bytes_eq, bytes_eq]
    rfl

/-! ## What a run depends on -/

/-- A step does the same whatever the host has read before, up to what the host has read. -/
theorem step_hostData {s t : State} (h : step s = .next t) (d : Option HostDatum) :
    ∃ d', step { s with hostData := d } = .next { t with hostData := d' } := by
  rcases step_cases h with ⟨hs, rfl⟩ | ⟨a, rest, hs, hm⟩
  · exact ⟨d, step_idle hs⟩
  · obtain rfl : t.script = rest := hostMove_script hm
    obtain ⟨d', hm', -⟩ := hostMove_agent hm t.script d
    exact ⟨d', (step_cons (s := { s with hostData := d }) hs).trans hm'⟩

/-- So do the steps of a run. -/
theorem run_hostData (n : Nat) {s t : State} (h : Sys2Proof.core.run n s = .next t) (d : Option HostDatum) :
    ∃ d', Sys2Proof.core.run n { s with hostData := d } = .next { t with hostData := d' } := by
  induction n generalizing s d with
  | zero => cases h; exact ⟨d, rfl⟩
  | succ n ih =>
    obtain ⟨u, hu⟩ := everyStepAnswersAState s
    rw [run_step n hu] at h
    obtain ⟨e, he⟩ := step_hostData hu d
    obtain ⟨d', hd'⟩ := ih h e
    exact ⟨d', (run_step n he).trans hd'⟩

/-- The scripts of two states are one run, under one configuration. -/
def SameRun (s s' : State) : Prop :=
  ∃ k rest, s.script = .reset k :: rest ∧ s'.script = .reset k :: rest ∧ k.getD s.cfg = k.getD s'.cfg

theorem SameRun.symm {s s' : State} : SameRun s s' → SameRun s' s
  | ⟨k, rest, hs, hs', hcfg⟩ => ⟨k, rest, hs', hs, hcfg.symm⟩

theorem SameRun.script_eq {s s' : State} : SameRun s s' → s.script = s'.script
  | ⟨_, _, hs, hs', _⟩ => hs.trans hs'.symm

/-- The reset a run begins with leaves nothing of the state before it but what the host has read, so after each action
the run is where the other is. -/
theorem SameRun.run_eq {s s' t : State} (h : SameRun s s') {n : Nat} (hn : 1 ≤ n)
    (ht : Sys2Proof.core.run n s = .next t) : ∃ d, Sys2Proof.core.run n s' = .next { t with hostData := d } := by
  obtain ⟨k, rest, hs, hs', hcfg⟩ := h
  obtain ⟨n, rfl⟩ := Nat.exists_eq_add_of_le' hn
  have hreset : resetBlock k { s' with script := rest }
      = { resetBlock k { s with script := rest } with hostData := s'.hostData } := by
    simp only [resetBlock, hcfg]
  rw [run_step n (step_reset hs)] at ht
  rw [run_step n (step_reset hs'), hreset]
  exact run_hostData n ht s'.hostData

theorem SameRun.hasFaulted {s s' : State} (h : SameRun s s') : HasFaulted s → HasFaulted s' := by
  rintro ⟨n, t, h1, hn, ht, hf⟩
  obtain ⟨d, hd⟩ := h.run_eq h1 ht
  exact ⟨n, _, h1, h.script_eq ▸ hn, hd, hf⟩

theorem SameRun.runObservation_eq {s s' : State} (h : SameRun s s') : runObservation s = runObservation s' := by
  obtain ⟨t, ht⟩ := runScript_next s
  have h1 : 1 ≤ s.script.length := by
    obtain ⟨k, rest, hs, -⟩ := h
    simp [hs]
  obtain ⟨d, hd⟩ := h.run_eq h1 ht
  rw [h.script_eq] at hd
  rw [runObservation_of_next ht, runObservation_of_next hd]
  exact congrArg some (observe_agent t t.script d).symm

/-- Settles O47: after its first action, a reset, the run is the same but for what the host has read
(`SameRun.run_eq`), which is neither observed nor a fault. -/
theorem runDependsOnlyOnItsActions : Obligations.RunDependsOnlyOnItsActions := by
  intro s s' k rest hs hs' hcfg
  have h : SameRun s s' := ⟨k, rest, hs, hs', hcfg⟩
  have hrun : IsRun s ↔ IsRun s' := by rw [IsRun, IsRun, h.script_eq]
  have hf : HasFaulted s ↔ HasFaulted s' := ⟨h.hasFaulted, h.symm.hasFaulted⟩
  exact ⟨h.runObservation_eq, by rw [endsNormally_iff, endsNormally_iff, hrun, hf]⟩

end Sys2Proof.Machine
end
